-- ==== Sys2Proof/Word.lean ====
section
/-!
DEFINITION. The fixed-width values of the machine (00_scope R6, R8): bytes, words, and the operand
fields of an instruction word (30_encoding R92). Every value is unsigned (R8).
-/

namespace Sys2Proof

/-- A byte: a general register, a memory byte, a timer, an 8-bit immediate `nn` (R6 `XLEN`, R92). -/
abbrev Byte := BitVec 8

/-- A 16-bit word: `I`, `PC`, a stack entry, an instruction word (R6 `ALEN`, `ILEN`), the key flags (R44). -/
abbrev Word := BitVec 16

/-- Four bits: a register index `x` or `y`, or the immediate `n` (R92). -/
abbrev Nibble := BitVec 4

/-- Twelve bits: the address operand `nnn` (R92). -/
abbrev Addr := BitVec 12

end Sys2Proof
end

