-- ==== Sys2Proof/Config.lean ====
section
/-!
DEFINITION. What the hardware fixes (00_scope R6) and the values the spec leaves free
(92_eei_decisions section 5).
-/

namespace Sys2Proof

/-- `MEM_SIZE`: bytes of memory, addresses 0 to 4095 (R6). -/
abbrev Config.memSize : Nat := 4096

/-- `PROG_BASE`: where a program is loaded and the reset value of `PC` (R6). -/
abbrev Config.progBase : Nat := 512

/-- `PROG_MAX`: the longest program in bytes (R6). -/
abbrev Config.progMax : Nat := 3584

/-- The last address a fetch may start at (R65). -/
abbrev Config.lastFetch : Nat := 4094

/-- What a byte of memory that nothing has written reads as. DESIGN CHOICE, unsafe (log 1): R80 leaves the
power-up contents arbitrary. Every other contents is a list of entries, so a claim over every state
covers every power-up memory. -/
def Config.unlistedByte : Byte := 0

/-- FREE VALUE (log 5, safe): the key flags the host presents to a Cycle event whose inputs the state does not
lay down. Nothing can be proved about it (R44; 93 U6, 92 section 5 `KEYS`). -/
opaque Config.freeKeys : Nat → Word

/-- FREE VALUE (log 5, safe): the random byte of a Cycle event whose inputs the state does not lay down
(R45; 92 section 5 `RND`). -/
opaque Config.freeRnd : Nat → Byte

end Sys2Proof
end

