-- ==== Sys2Proof/Syntax.lean ====
section
/-!
DEFINITION. The 33 instructions of 30_encoding R96 (spec/opcode_table.json), one constructor per row, in the
table's order. Each operand has the width of its field (R92), so no term of `Instr` is out of range (log 11).
-/

namespace Sys2Proof

/-- The instruction set (R2, R96). `x` and `y` are register indices, `n`, `nn`, `nnn` immediates. -/
inductive Instr where
  /-- `CLS`, `00E0` (R171). -/
  | cls
  /-- `RET`, `00EE` (R131). -/
  | ret
  /-- `JP nnn`, `1nnn` (R132). -/
  | jp (nnn : Addr)
  /-- `CALL nnn`, `2nnn` (R133). -/
  | call (nnn : Addr)
  /-- `SE Vx, nn`, `3xnn` (R134). -/
  | seImm (x : Nibble) (nn : Byte)
  /-- `SNE Vx, nn`, `4xnn` (R135). -/
  | sneImm (x : Nibble) (nn : Byte)
  /-- `SE Vx, Vy`, `5xy0` (R136). -/
  | seReg (x y : Nibble)
  /-- `LD Vx, nn`, `6xnn` (R151). -/
  | ldImm (x : Nibble) (nn : Byte)
  /-- `ADD Vx, nn`, `7xnn` (R152). -/
  | addImm (x : Nibble) (nn : Byte)
  /-- `LD Vx, Vy`, `8xy0` (R153). -/
  | ldReg (x y : Nibble)
  /-- `OR Vx, Vy`, `8xy1` (R154). -/
  | orReg (x y : Nibble)
  /-- `AND Vx, Vy`, `8xy2` (R155). -/
  | andReg (x y : Nibble)
  /-- `XOR Vx, Vy`, `8xy3` (R156). -/
  | xorReg (x y : Nibble)
  /-- `ADD Vx, Vy`, `8xy4` (R157). -/
  | addReg (x y : Nibble)
  /-- `SUB Vx, Vy`, `8xy5` (R158). -/
  | subReg (x y : Nibble)
  /-- `SHR Vx`, `8xy6` (R160); `y` is decoded and ignored (R97, log 11). -/
  | shr (x y : Nibble)
  /-- `SUBN Vx, Vy`, `8xy7` (R159). -/
  | subnReg (x y : Nibble)
  /-- `SHL Vx`, `8xyE` (R161); `y` is decoded and ignored (R97, log 11). -/
  | shl (x y : Nibble)
  /-- `SNE Vx, Vy`, `9xy0` (R137). -/
  | sneReg (x y : Nibble)
  /-- `LD I, nnn`, `Annn` (R162). -/
  | ldI (nnn : Addr)
  /-- `JP V0, nnn`, `Bnnn` (R138). -/
  | jpV0 (nnn : Addr)
  /-- `RND Vx, nn`, `Cxnn` (R164). -/
  | rnd (x : Nibble) (nn : Byte)
  /-- `DRW Vx, Vy, n`, `Dxyn` (R173). -/
  | drw (x y n : Nibble)
  /-- `SKP Vx`, `Ex9E` (R180). -/
  | skp (x : Nibble)
  /-- `SKNP Vx`, `ExA1` (R181). -/
  | sknp (x : Nibble)
  /-- `LD Vx, DT`, `Fx07` (R184). -/
  | ldFromDT (x : Nibble)
  /-- `LD Vx, K`, `Fx0A` (R182). -/
  | ldKey (x : Nibble)
  /-- `LD DT, Vx`, `Fx15` (R185). -/
  | ldDT (x : Nibble)
  /-- `LD ST, Vx`, `Fx18` (R186). -/
  | ldST (x : Nibble)
  /-- `ADD I, Vx`, `Fx1E` (R163). -/
  | addI (x : Nibble)
  /-- `LD B, Vx`, `Fx33` (R191). -/
  | ldB (x : Nibble)
  /-- `LD [I], Vx`, `Fx55` (R192). -/
  | storeRegs (x : Nibble)
  /-- `LD Vx, [I]`, `Fx65` (R193). -/
  | loadRegs (x : Nibble)
  deriving DecidableEq, Repr

end Sys2Proof
end

