-- ==== Sys2Proof/WellFormed.lean ====
section
/-!
DEFINITION. The checks on syntax. A term of `Instr` needs none: its operand fields have exactly the widths of
R92 and every value of each is legal (R92, R93, R97; log 11). What can be ill formed is an instruction WORD
(it may match no row of 30_encoding R96) and a PROGRAM (it may be too long, 20_memory R70). The rows stand here
as the masks and matches of spec/opcode_table.json, apart from the decoder, which goes by nibbles (R94).
-/

namespace Sys2Proof

/-- One row of the opcode map: a word matches it when `word & mask = match` (R94). -/
structure Row where
  /-- the bits the row fixes -/
  mask : Word
  /-- their values -/
  bits : Word
  deriving DecidableEq, Repr

/-- `(ins & mask) = match` (R94). -/
def Row.admits (r : Row) (w : Word) : Bool := w &&& r.mask == r.bits

/-- The row of R96 an instruction belongs to. -/
def Instr.row : Instr → Row
  | .cls => ⟨0xFFFF, 0x00E0⟩
  | .ret => ⟨0xFFFF, 0x00EE⟩
  | .jp _ => ⟨0xF000, 0x1000⟩
  | .call _ => ⟨0xF000, 0x2000⟩
  | .seImm _ _ => ⟨0xF000, 0x3000⟩
  | .sneImm _ _ => ⟨0xF000, 0x4000⟩
  | .seReg _ _ => ⟨0xF00F, 0x5000⟩
  | .ldImm _ _ => ⟨0xF000, 0x6000⟩
  | .addImm _ _ => ⟨0xF000, 0x7000⟩
  | .ldReg _ _ => ⟨0xF00F, 0x8000⟩
  | .orReg _ _ => ⟨0xF00F, 0x8001⟩
  | .andReg _ _ => ⟨0xF00F, 0x8002⟩
  | .xorReg _ _ => ⟨0xF00F, 0x8003⟩
  | .addReg _ _ => ⟨0xF00F, 0x8004⟩
  | .subReg _ _ => ⟨0xF00F, 0x8005⟩
  | .shr _ _ => ⟨0xF00F, 0x8006⟩
  | .subnReg _ _ => ⟨0xF00F, 0x8007⟩
  | .shl _ _ => ⟨0xF00F, 0x800E⟩
  | .sneReg _ _ => ⟨0xF00F, 0x9000⟩
  | .ldI _ => ⟨0xF000, 0xA000⟩
  | .jpV0 _ => ⟨0xF000, 0xB000⟩
  | .rnd _ _ => ⟨0xF000, 0xC000⟩
  | .drw _ _ _ => ⟨0xF000, 0xD000⟩
  | .skp _ => ⟨0xF0FF, 0xE09E⟩
  | .sknp _ => ⟨0xF0FF, 0xE0A1⟩
  | .ldFromDT _ => ⟨0xF0FF, 0xF007⟩
  | .ldKey _ => ⟨0xF0FF, 0xF00A⟩
  | .ldDT _ => ⟨0xF0FF, 0xF015⟩
  | .ldST _ => ⟨0xF0FF, 0xF018⟩
  | .addI _ => ⟨0xF0FF, 0xF01E⟩
  | .ldB _ => ⟨0xF0FF, 0xF033⟩
  | .storeRegs _ => ⟨0xF0FF, 0xF055⟩
  | .loadRegs _ => ⟨0xF0FF, 0xF065⟩

/-- The first sixteen rows of R96. -/
def opcodeTableLow : List Row :=
  [⟨0xFFFF, 0x00E0⟩,
   ⟨0xFFFF, 0x00EE⟩,
   ⟨0xF000, 0x1000⟩,
   ⟨0xF000, 0x2000⟩,
   ⟨0xF000, 0x3000⟩,
   ⟨0xF000, 0x4000⟩,
   ⟨0xF00F, 0x5000⟩,
   ⟨0xF000, 0x6000⟩,
   ⟨0xF000, 0x7000⟩,
   ⟨0xF00F, 0x8000⟩,
   ⟨0xF00F, 0x8001⟩,
   ⟨0xF00F, 0x8002⟩,
   ⟨0xF00F, 0x8003⟩,
   ⟨0xF00F, 0x8004⟩,
   ⟨0xF00F, 0x8005⟩,
   ⟨0xF00F, 0x8006⟩]

/-- The other seventeen rows of R96. -/
def opcodeTableHigh : List Row :=
  [⟨0xF00F, 0x8007⟩,
   ⟨0xF00F, 0x800E⟩,
   ⟨0xF00F, 0x9000⟩,
   ⟨0xF000, 0xA000⟩,
   ⟨0xF000, 0xB000⟩,
   ⟨0xF000, 0xC000⟩,
   ⟨0xF000, 0xD000⟩,
   ⟨0xF0FF, 0xE09E⟩,
   ⟨0xF0FF, 0xE0A1⟩,
   ⟨0xF0FF, 0xF007⟩,
   ⟨0xF0FF, 0xF00A⟩,
   ⟨0xF0FF, 0xF015⟩,
   ⟨0xF0FF, 0xF018⟩,
   ⟨0xF0FF, 0xF01E⟩,
   ⟨0xF0FF, 0xF033⟩,
   ⟨0xF0FF, 0xF055⟩,
   ⟨0xF0FF, 0xF065⟩]

/-- The complete opcode map, 33 rows (R96). -/
def opcodeTable : List Row := opcodeTableLow ++ opcodeTableHigh

/-- A word is an instruction when some row admits it; any other word is an unknown instruction (R94, R98). -/
def wordWellFormed (w : Word) : Bool := opcodeTable.any fun r => r.admits w

/-- A program is well formed when it is at most `PROG_MAX` bytes long (R70, R205). -/
def programWellFormed (bytes : List Byte) : Bool := bytes.length ≤ Config.progMax

end Sys2Proof
end

