-- ==== Sys2Proof/Decode.lean ====
section
/-!
DEFINITION. The decoder (30_encoding R90 to R100, 40_cycle R113), the encoder, and the byte order of an
instruction word (20_memory R66). The bit positions and opcode values are the spec's, which marks them as
general knowledge (decisions D1, D2, D3; UNVERIFIED, log 14).
-/

namespace Sys2Proof

/-! ### Byte order and fields -/

/-- `ins = MEM[PC] ++ MEM[PC+1]`: the byte at the lower address is the high one (R66). -/
def wordOfBytes (b0 b1 : Byte) : Word := b0 ++ b1

/-- The two bytes of a word in the order they stand in memory (R66). -/
def bytesOfWord (w : Word) : List Byte := [w.extractLsb' 8 8, w.extractLsb' 0 8]

/-- `op = ins[15:12]` (R91). -/
def fieldOp (w : Word) : Nibble := w.extractLsb' 12 4

/-- `x = ins[11:8]` (R92). -/
def fieldX (w : Word) : Nibble := w.extractLsb' 8 4

/-- `y = ins[7:4]` (R92). -/
def fieldY (w : Word) : Nibble := w.extractLsb' 4 4

/-- `n = ins[3:0]` (R92); the sub-opcode of the format `XY` (R91). -/
def fieldN (w : Word) : Nibble := w.extractLsb' 0 4

/-- `nn = ins[7:0]` (R92); the sub-opcode of the format `X` (R91). -/
def fieldNN (w : Word) : Byte := w.extractLsb' 0 8

/-- `nnn = ins[11:0]` (R92). -/
def fieldNNN (w : Word) : Addr := w.extractLsb' 0 12

/-! ### Decoding -/

/-- Opcode nibble 0: the whole word is fixed (R94). -/
def decodeFixed (w : Word) : Option Instr :=
  if w = 0x00E0#16 then some .cls
  else if w = 0x00EE#16 then some .ret
  else none

/-- Opcode nibble 5: the low nibble must be 0 (R97). -/
def decodeSeReg (w : Word) : Option Instr :=
  if fieldN w = 0x0#4 then some (.seReg (fieldX w) (fieldY w)) else none

/-- Opcode nibble 8: the low nibble is a sub-opcode (R94, R96 rows 10 to 18). -/
def decodeArith (w : Word) : Option Instr :=
  let x := fieldX w
  let y := fieldY w
  if fieldN w = 0x0#4 then some (.ldReg x y)
  else if fieldN w = 0x1#4 then some (.orReg x y)
  else if fieldN w = 0x2#4 then some (.andReg x y)
  else if fieldN w = 0x3#4 then some (.xorReg x y)
  else if fieldN w = 0x4#4 then some (.addReg x y)
  else if fieldN w = 0x5#4 then some (.subReg x y)
  else if fieldN w = 0x6#4 then some (.shr x y)
  else if fieldN w = 0x7#4 then some (.subnReg x y)
  else if fieldN w = 0xE#4 then some (.shl x y)
  else none

/-- Opcode nibble 9: the low nibble must be 0 (R97). -/
def decodeSneReg (w : Word) : Option Instr :=
  if fieldN w = 0x0#4 then some (.sneReg (fieldX w) (fieldY w)) else none

/-- Opcode nibble E: the low byte is a sub-opcode (R94, R96 rows 24 and 25). -/
def decodeKeySkip (w : Word) : Option Instr :=
  let x := fieldX w
  if fieldNN w = 0x9E#8 then some (.skp x)
  else if fieldNN w = 0xA1#8 then some (.sknp x)
  else none

/-- Opcode nibble F: the low byte is a sub-opcode (R94, R96 rows 26 to 33). -/
def decodeMisc (w : Word) : Option Instr :=
  let x := fieldX w
  if fieldNN w = 0x07#8 then some (.ldFromDT x)
  else if fieldNN w = 0x0A#8 then some (.ldKey x)
  else if fieldNN w = 0x15#8 then some (.ldDT x)
  else if fieldNN w = 0x18#8 then some (.ldST x)
  else if fieldNN w = 0x1E#8 then some (.addI x)
  else if fieldNN w = 0x33#8 then some (.ldB x)
  else if fieldNN w = 0x55#8 then some (.storeRegs x)
  else if fieldNN w = 0x65#8 then some (.loadRegs x)
  else none

/-- Decode one instruction word by its leading opcode nibble; `none` is an unknown instruction, which includes
every `0nnn` but `00E0` and `00EE`, and `Fx29` (R94, R98, R100, R113). -/
def decodeWord (w : Word) : Option Instr :=
  match (fieldOp w).toNat with
  | 0x0 => decodeFixed w
  | 0x1 => some (.jp (fieldNNN w))
  | 0x2 => some (.call (fieldNNN w))
  | 0x3 => some (.seImm (fieldX w) (fieldNN w))
  | 0x4 => some (.sneImm (fieldX w) (fieldNN w))
  | 0x5 => decodeSeReg w
  | 0x6 => some (.ldImm (fieldX w) (fieldNN w))
  | 0x7 => some (.addImm (fieldX w) (fieldNN w))
  | 0x8 => decodeArith w
  | 0x9 => decodeSneReg w
  | 0xA => some (.ldI (fieldNNN w))
  | 0xB => some (.jpV0 (fieldNNN w))
  | 0xC => some (.rnd (fieldX w) (fieldNN w))
  | 0xD => some (.drw (fieldX w) (fieldY w) (fieldN w))
  | 0xE => decodeKeySkip w
  | 0xF => decodeMisc w
  | _ => none -- four bits have no other value

/-- What the decoder finds at the front of a byte sequence, rejecting by name. -/
inductive Decoded where
  /-- a known instruction, and the bytes after it -/
  | known (i : Instr) (rest : List Byte)
  /-- a word that matches no row (R98), and the bytes after it -/
  | unknown (w : Word) (rest : List Byte)
  /-- fewer than the two bytes every instruction has (R90) -/
  | truncated
  deriving DecidableEq, Repr

/-- Decode the instruction at the front of any byte sequence: two bytes, big-endian (R66, R90). -/
def decodeBytes : List Byte → Decoded
  | b0 :: b1 :: rest =>
    match decodeWord (wordOfBytes b0 b1) with
    | some i => .known i rest
    | none => .unknown (wordOfBytes b0 b1) rest
  | _ => .truncated

/-- The instruction a decoding found, if it found one. -/
def Decoded.instr : Decoded → Option Instr
  | .known i _ => some i
  | .unknown _ _ => none
  | .truncated => none

/-- The word whose low `nbits` bits are those of `w`, every higher bit 0. -/
def tableWord (nbits w : Nat) : Word := BitVec.ofNat 16 (w % 2 ^ nbits)

/-- The instruction the decoder reads from a word numbered as spec/opcode_table.json numbers its bits: the word
is laid out as its two bytes stand in memory and given to `decodeBytes`. -/
def decodeTableWord (nbits w : Nat) : Option Instr :=
  (decodeBytes (bytesOfWord (tableWord nbits w))).instr

/-! ### Encoding -/

/-- The format `NNN`: opcode nibble, 12-bit address (R91). -/
def packNNN (op : Nibble) (nnn : Addr) : Word := op ++ nnn

/-- The formats `XNN` and `X`: opcode nibble, register, 8-bit immediate or sub-opcode (R91). -/
def packXNN (op x : Nibble) (nn : Byte) : Word := op ++ x ++ nn

/-- The formats `XYN` and `XY`: opcode nibble, two registers, 4-bit immediate or sub-opcode (R91). -/
def packXYN (op x y n : Nibble) : Word := op ++ x ++ y ++ n

/-- The word of an instruction, from the patterns of R96. -/
def encode : Instr → Word
  | .cls => 0x00E0#16
  | .ret => 0x00EE#16
  | .jp nnn => packNNN 0x1 nnn
  | .call nnn => packNNN 0x2 nnn
  | .seImm x nn => packXNN 0x3 x nn
  | .sneImm x nn => packXNN 0x4 x nn
  | .seReg x y => packXYN 0x5 x y 0x0
  | .ldImm x nn => packXNN 0x6 x nn
  | .addImm x nn => packXNN 0x7 x nn
  | .ldReg x y => packXYN 0x8 x y 0x0
  | .orReg x y => packXYN 0x8 x y 0x1
  | .andReg x y => packXYN 0x8 x y 0x2
  | .xorReg x y => packXYN 0x8 x y 0x3
  | .addReg x y => packXYN 0x8 x y 0x4
  | .subReg x y => packXYN 0x8 x y 0x5
  | .shr x y => packXYN 0x8 x y 0x6
  | .subnReg x y => packXYN 0x8 x y 0x7
  | .shl x y => packXYN 0x8 x y 0xE
  | .sneReg x y => packXYN 0x9 x y 0x0
  | .ldI nnn => packNNN 0xA nnn
  | .jpV0 nnn => packNNN 0xB nnn
  | .rnd x nn => packXNN 0xC x nn
  | .drw x y n => packXYN 0xD x y n
  | .skp x => packXNN 0xE x 0x9E
  | .sknp x => packXNN 0xE x 0xA1
  | .ldFromDT x => packXNN 0xF x 0x07
  | .ldKey x => packXNN 0xF x 0x0A
  | .ldDT x => packXNN 0xF x 0x15
  | .ldST x => packXNN 0xF x 0x18
  | .addI x => packXNN 0xF x 0x1E
  | .ldB x => packXNN 0xF x 0x33
  | .storeRegs x => packXNN 0xF x 0x55
  | .loadRegs x => packXNN 0xF x 0x65

end Sys2Proof
end

