-- ==== Sys2Proof/Machine/State.lean ====
section
/-!
DEFINITION. The state of the machine as plain data (10_state R20), the events that change it (00_scope R10), the
reasons a step could stop, and the state right after Reset (10_state R48).
-/

namespace Sys2Proof.Machine

/-- The run state of the core (R38). -/
inductive RunState where
  /-- fetches and executes -/
  | ready
  /-- a `LD Vx, K` waits for a newly pressed key -/
  | waitingForKey
  /-- stopped by a fatal error until Reset -/
  | halted
  deriving DecidableEq, Repr

/-- The report of the most recent Cycle event (R39). Codes 5 and 7 never stand in `DIAG`. -/
inductive Report where
  /-- code 0: executed without error, or ended a key wait -/
  | none
  /-- code 1, fatal -/
  | outOfBoundsAccess
  /-- code 2, fatal -/
  | stackOverflow
  /-- code 3, fatal -/
  | stackUnderflow
  /-- code 4: an unknown word was skipped -/
  | unknownInstruction
  /-- code 6: the core waits and no key was newly pressed -/
  | noProgress
  deriving DecidableEq, Repr

/-- The three fatal errors (R200, R206). -/
inductive FatalError where
  /-- a fetch or a data access beyond the memory (R201) -/
  | outOfBoundsAccess
  /-- CALL with 16 entries in use (R202) -/
  | stackOverflow
  /-- RET with no entry in use (R203) -/
  | stackUnderflow
  deriving DecidableEq, Repr

/-- What a Load event returns to the host (R70). -/
inductive LoadResult where
  /-- the bytes are in memory -/
  | none
  /-- code 5: longer than 3584 bytes, rejected whole (R205) -/
  | invalidProgramLength
  deriving DecidableEq, Repr

/-- One event, with its inputs (R10, R47): the unit of execution. -/
inductive Event where
  /-- Reset (R240) -/
  | reset
  /-- Load of a byte sequence (R70) -/
  | load (bytes : List Byte)
  /-- Cycle with its samples of `KEYS` and `RND` (R110, R44, R45) -/
  | cycle (keys : Word) (rnd : Byte)
  /-- Tick (R220) -/
  | tick
  deriving DecidableEq, Repr

/-- Memory: the bytes that differ from `Config.unlistedByte`, by strictly rising address (log 1). -/
abbrev Memory := List Host.Cell

/-- The display buffer: 32 rows of 64 pixels, `true` for ON (R35, R36). -/
abbrev Display := Vector (Vector Bool 64) 32

/-- The MODEL's own bookkeeping of the host, no state of the hardware (R44, R45, R49; logs 3 to 6). -/
structure HostSide where
  /-- the sample of `KEYS` the current Cycle event took (R44) -/
  keys : Word
  /-- the sample of `RND` the current Cycle event took (R45) -/
  rnd : Byte
  /-- the events the host has laid down, oldest first (R75, R231) -/
  pending : List Event
  /-- the counter the free inputs are drawn with (log 5) -/
  draws : Nat
  /-- what the latest Load event returned (R70); no Load so far: `none` -/
  loadResult : Option LoadResult
  deriving DecidableEq, Repr

/-- The whole state: one field per row of the table of R20, and `host`. -/
structure State where
  /-- `V[0..15]` (R21) -/
  v : Vector Byte 16
  /-- `I` (R24) -/
  i : Word
  /-- `PC` (R25) -/
  pc : Word
  /-- `STK[0..15]` (R28) -/
  stk : Vector Word 16
  /-- `SP`, the number of entries in use, 0 to 16 (R29) -/
  sp : Fin 17
  /-- `DT` (R32) -/
  dt : Byte
  /-- `ST` (R33) -/
  st : Byte
  /-- `FB` (R35) -/
  fb : Display
  /-- `MEM` (R37) -/
  mem : Memory
  /-- `RUN` (R38) -/
  run : RunState
  /-- `DIAG` (R39) -/
  diag : Report
  /-- `WREG` (R40) -/
  wreg : Nibble
  /-- `KPREV` (R41) -/
  kprev : Word
  /-- the model's own bookkeeping of the host -/
  host : HostSide
  deriving DecidableEq, Repr

/-- Why a step would stop with a fault: there is NO reason. The spec gives every event an effect in every state:
a fatal error is a next state with `RUN = HALTED` (R206) and a Cycle when halted changes nothing (R111). Safe:
no constructor, so nothing can raise one (log 8). -/
inductive Fault where
  deriving DecidableEq, Repr

/-- Why an instruction would be refused. -/
inductive Refusal where
  /-- raised by an arm of `exec` for an instruction without a meaning; safe. No arm raises it. -/
  | notModelled (mnemonic : String)
  deriving DecidableEq, Repr

/-- What an event or an instruction answers. -/
abbrev Result := Host.Outcome State Fault Refusal

/-- The model's bookkeeping at the start: no sample taken, nothing laid down, nothing drawn (DESIGN CHOICE, logs
3 to 6). -/
def HostSide.initial : HostSide where
  keys := 0
  rnd := 0
  pending := []
  draws := 0
  loadResult := Option.none

/-- The machine right after Reset (R48). `STK` and `MEM` are what Reset leaves as they were; here `STK` is all 0
(log 2) and nothing is listed in memory (log 1), both DESIGN CHOICE. -/
def State.reset : State where
  v := Vector.replicate 16 0
  i := 0
  pc := 512
  stk := Vector.replicate 16 0
  sp := 0
  dt := 0
  st := 0
  fb := Vector.replicate 32 (Vector.replicate 64 false)
  mem := []
  run := .ready
  diag := .none
  wreg := 0
  kprev := 0
  host := HostSide.initial

end Sys2Proof.Machine
end

