-- ==== Sys2Proof/Machine/Ops.lean ====
section
/-!
DEFINITION. The named operations over memory, registers, stack and display, how an instruction completes, and how
one raises a fatal error. Everything that reads or writes a piece of state goes through these.
-/

namespace Sys2Proof.Machine

/-! ### Memory (20_memory) -/

/-- The canonical form: addresses strictly rising and below 4096, no entry equal to the unlisted byte (log 1). -/
abbrev Memory.wf (m : Memory) : Prop :=
  m.Pairwise (fun c d => c.1 < d.1) ∧ ∀ c ∈ m, c.1 < Config.memSize ∧ c.2 ≠ Config.unlistedByte

/-- `MEM[a]` (R9, R60). -/
def Memory.read : Memory → Nat → Byte
  | [], _ => Config.unlistedByte
  | (k, b) :: m, a => if k = a then b else Memory.read m a

/-- Memory with nothing listed at `a`. -/
def Memory.erase (m : Memory) (a : Nat) : Memory := m.filter fun c => c.1 ≠ a

/-- Memory with `b` listed at `a`, in the place its address gives it. -/
def Memory.insert : Memory → Nat → Byte → Memory
  | [], a, b => [(a, b)]
  | (k, c) :: m, a, b =>
    if a < k then (a, b) :: (k, c) :: m
    else if k = a then (a, b) :: m
    else (k, c) :: Memory.insert m a b

/-- `MEM[a] <- b` (R9). -/
def Memory.write (m : Memory) (a : Nat) (b : Byte) : Memory :=
  if b = Config.unlistedByte then Memory.erase m a else Memory.insert m a b

/-- `MemRead(a, n)`: the `n` bytes from `a`, first byte first (R9). -/
def Memory.readList (m : Memory) (a n : Nat) : List Byte :=
  (List.range n).map fun k => Memory.read m (a + k)

/-- `MemWrite(a, n, bytes)`: the bytes to `a`, `a+1`, ... (R9). -/
def Memory.writeList : Memory → Nat → List Byte → Memory
  | m, _, [] => m
  | m, a, b :: bs => Memory.writeList (Memory.write m a b) (a + 1) bs

/-! ### General registers (10_state R21, R22) -/

/-- `V[x]`. -/
def State.getV (s : State) (x : Nibble) : Byte := s.v[x.toNat]'x.isLt

/-- `V[x] <- b`. -/
def State.setV (s : State) (x : Nibble) (b : Byte) : State := { s with v := s.v.set x.toNat b x.isLt }

/-! ### Call stack (10_state R30, R31) -/

/-- `push(a)`: nothing when 16 entries are in use, else the entry written and `SP` one up (R30). -/
def State.push (s : State) (a : Word) : Option State :=
  if h : s.sp.val = 16 then none
  else some { s with stk := s.stk.set s.sp.val a (by omega), sp := ⟨s.sp.val + 1, by omega⟩ }

/-- `pop()`: nothing when no entry is in use, else the most recent entry and `SP` one down; the entry is not
cleared (R31). -/
def State.pop (s : State) : Option (Word × State) :=
  if h : s.sp.val = 0 then none
  else some (s.stk[s.sp.val - 1]'(by omega), { s with sp := ⟨s.sp.val - 1, by omega⟩ })

/-! ### Display (10_state R36, 43_display R170) -/

/-- `FB[r][c]`. -/
def Display.pixel (fb : Display) (r : Fin 32) (c : Fin 64) : Bool := fb[r.val][c.val]

/-- `FB[r][c] <- b`. -/
def Display.setPixel (fb : Display) (r : Fin 32) (c : Fin 64) (b : Bool) : Display :=
  fb.set r.val (fb[r.val].set c.val b)

/-- `clear()`: every pixel OFF (R170). -/
def Display.clear : Display := Vector.replicate 32 (Vector.replicate 64 false)

/-! ### Codes (10_state R38, R39, 60_exceptions R200) -/

/-- The encoding of `RUN` (R38). -/
def RunState.code : RunState → BitVec 2
  | .ready => 0
  | .waitingForKey => 1
  | .halted => 2

/-- The encoding of `DIAG` (R39). -/
def Report.code : Report → BitVec 3
  | .none => 0
  | .outOfBoundsAccess => 1
  | .stackOverflow => 2
  | .stackUnderflow => 3
  | .unknownInstruction => 4
  | .noProgress => 6

/-- The code of a Load's result (R70). -/
def LoadResult.code : LoadResult → BitVec 3
  | .none => 0
  | .invalidProgramLength => 5

/-- The report of a fatal error (R200). -/
def FatalError.report : FatalError → Report
  | .outOfBoundsAccess => .outOfBoundsAccess
  | .stackOverflow => .stackOverflow
  | .stackUnderflow => .stackUnderflow

/-- The reports that stand with `RUN = HALTED` (R39, R50). -/
def Report.fatal : Report → Bool
  | .none => false
  | .outOfBoundsAccess => true
  | .stackOverflow => true
  | .stackUnderflow => true
  | .unknownInstruction => false
  | .noProgress => false

/-! ### How an instruction ends (40_cycle R114, 60_exceptions R206) -/

/-- Fatal-error entry, the meaning of `raise`: `RUN <- HALTED`, `DIAG <- code`, nothing else (R206). -/
def State.raise (s : State) (e : FatalError) : Result :=
  .next { s with run := .halted, diag := e.report }

/-- An instruction completes: the new `PC`, and `DIAG <- 0` (R114 d, e). -/
def State.completeAt (s : State) (pc : Word) : Result :=
  .next { s with pc := pc, diag := .none }

/-- An instruction completes and goes on to the next one: `PC <- PC + 2` (R26). -/
def State.completeNext (s : State) : Result := s.completeAt (s.pc + 2)

/-- A skip completes: `PC + 4` if its condition holds, else `PC + 2` (R26). -/
def State.skipIf (s : State) (cond : Bool) : Result :=
  s.completeAt (if cond then s.pc + 4 else s.pc + 2)

end Sys2Proof.Machine
end

