-- ==== Sys2Proof/Machine/Operands.lean ====
section
/-!
DEFINITION. The operand forms: immediates (30_encoding R93), the one addressing mode and its range check
(20_memory R64, 45_memory_transfer R190), the key index (44_keypad_timers R187), runs of registers (R192, R193).
-/

namespace Sys2Proof.Machine

/-- `zext_16` of a 12-bit address (R9, R93). -/
def zextAddr (nnn : Addr) : Word := nnn.setWidth 16

/-- `zext_16` of a byte (R9). -/
def zextByte (b : Byte) : Word := b.setWidth 16

/-- The address `I + k`, an unbounded integer: no wrap, no mask, no clamp (R64). -/
def State.dataAddr (s : State) (k : Nat) : Nat := s.i.toNat + k

/-- The `count` addresses from `I` are all in memory: `count = 0` or `I + count - 1 <= 4095` (R64). -/
def State.dataInRange (s : State) (count : Nat) : Bool :=
  count = 0 || s.dataAddr (count - 1) < Config.memSize

/-- `k = V[x][3:0]` (R187). -/
def State.keyIndex (s : State) (x : Nibble) : Nat := (s.getV x).toNat % 16

/-- Key `V[x][3:0]` is held in this Cycle event's sample (R44, R180). -/
def State.keyHeld (s : State) (x : Nibble) : Bool := s.host.keys.getLsbD (s.keyIndex x)

/-- `V[0], ..., V[x]` (R192). -/
def State.regsTo (s : State) (x : Nibble) : List Byte :=
  (List.range (x.toNat + 1)).map fun k => s.getV (BitVec.ofNat 4 k)

/-- `V[k] <- bytes(k)` for `k` in 0 .. `x`; the registers above `x` keep their values (R193). -/
def State.setRegsTo (s : State) (x : Nibble) (bytes : Nat → Byte) : State :=
  { s with v := Vector.ofFn fun k => if k.val ≤ x.toNat then bytes k.val else s.v[k.val] }

end Sys2Proof.Machine
end

