-- ==== Sys2Proof/Machine/Flags.lean ====
section
/-!
DEFINITION. The flag computations and the one way a flag reaches `VF` (10_state R22, 42_alu R150 and R157 to
R161, 43_display R173).
-/

namespace Sys2Proof.Machine

/-- The index of `VF` (R22). -/
def flagReg : Nibble := 15

/-- A flag as the byte `VF` holds: exactly 0 or 1 (R22). -/
def flagByte (f : Bool) : Byte := if f then 1 else 0

/-- Carry out of bit 7: the unsigned sum exceeds 255 (R157). -/
def carryOut (a b : Byte) : Bool := a.toNat + b.toNat > 255

/-- No borrow: the minuend is at least the subtrahend (R158, R159). -/
def noBorrow (minuend subtrahend : Byte) : Bool := minuend.toNat ≥ subtrahend.toNat

/-- The bit SHR shifts out (R160). -/
def lowBit (a : Byte) : Bool := a.getLsbD 0

/-- The bit SHL shifts out (R161). -/
def highBit (a : Byte) : Bool := a.getLsbD 7

/-- `V[15] <- flag`. -/
def State.setFlag (s : State) (f : Bool) : State := s.setV flagReg (flagByte f)

/-- The result to `V[x]` first and the flag to `VF` last, so that with `x = 15` the flag stays (R22, R150). -/
def State.setResultFlag (s : State) (x : Nibble) (result : Byte) (f : Bool) : State :=
  (s.setV x result).setFlag f

end Sys2Proof.Machine
end

