-- ==== Sys2Proof/Machine/Alu.lean ====
section
/-!
DEFINITION. Loads, arithmetic, logic, shifts, the index register and the random byte (42_alu R150 to R165). None
of these instructions can raise an error.
-/

namespace Sys2Proof.Machine

/-- `LD Vx, nn` (R151). -/
def execLdImm (x : Nibble) (nn : Byte) (s : State) : Result := (s.setV x nn).completeNext

/-- `ADD Vx, nn`: wraps mod 256, `VF` not written (R152). -/
def execAddImm (x : Nibble) (nn : Byte) (s : State) : Result := (s.setV x (s.getV x + nn)).completeNext

/-- `LD Vx, Vy` (R153). -/
def execLdReg (x y : Nibble) (s : State) : Result := (s.setV x (s.getV y)).completeNext

/-- `OR Vx, Vy`: no flag (R154). -/
def execOrReg (x y : Nibble) (s : State) : Result := (s.setV x (s.getV x ||| s.getV y)).completeNext

/-- `AND Vx, Vy`: no flag (R155). -/
def execAndReg (x y : Nibble) (s : State) : Result := (s.setV x (s.getV x &&& s.getV y)).completeNext

/-- `XOR Vx, Vy`: no flag (R156). -/
def execXorReg (x y : Nibble) (s : State) : Result := (s.setV x (s.getV x ^^^ s.getV y)).completeNext

/-- `ADD Vx, Vy`: the sum mod 256, then `VF` = carry (R157). -/
def execAddReg (x y : Nibble) (s : State) : Result :=
  (s.setResultFlag x (s.getV x + s.getV y) (carryOut (s.getV x) (s.getV y))).completeNext

/-- `SUB Vx, Vy`: `Vx - Vy` mod 256, then `VF` = no borrow (R158). -/
def execSubReg (x y : Nibble) (s : State) : Result :=
  (s.setResultFlag x (s.getV x - s.getV y) (noBorrow (s.getV x) (s.getV y))).completeNext

/-- `SUBN Vx, Vy`: `Vy - Vx` mod 256, then `VF` = no borrow (R159). -/
def execSubnReg (x y : Nibble) (s : State) : Result :=
  (s.setResultFlag x (s.getV y - s.getV x) (noBorrow (s.getV y) (s.getV x))).completeNext

/-- `SHR Vx`: logical, by one, in place; the field `y` is ignored; then `VF` = the old bit 0 (R160, D8). -/
def execShr (x : Nibble) (s : State) : Result :=
  (s.setResultFlag x (s.getV x >>> 1) (lowBit (s.getV x))).completeNext

/-- `SHL Vx`: by one, in place, mod 256; the field `y` is ignored; then `VF` = the old bit 7 (R161, D8). -/
def execShl (x : Nibble) (s : State) : Result :=
  (s.setResultFlag x (s.getV x <<< 1) (highBit (s.getV x))).completeNext

/-- `LD I, nnn` (R162). -/
def execLdI (nnn : Addr) (s : State) : Result := { s with i := zextAddr nnn }.completeNext

/-- `ADD I, Vx`: wraps mod 65536, no flag, no range check (R163). -/
def execAddI (x : Nibble) (s : State) : Result := { s with i := s.i + zextByte (s.getV x) }.completeNext

/-- `RND Vx, nn`: this Cycle event's `RND`, masked (R164, R45). -/
def execRnd (x : Nibble) (nn : Byte) (s : State) : Result := (s.setV x (s.host.rnd &&& nn)).completeNext

end Sys2Proof.Machine
end

