-- ==== Sys2Proof/Machine/Control.lean ====
section
/-!
DEFINITION. Control transfer (41_control_transfer R130 to R138). A target is not checked when the transfer
executes; the next fetch checks it (R130).
-/

namespace Sys2Proof.Machine

/-- `RET`: `StackUnderflow` on an empty stack, else `PC` is the popped return address (R131). -/
def execRet (s : State) : Result :=
  match s.pop with
  | none => s.raise .stackUnderflow
  | some (ret, s') => s'.completeAt ret

/-- `JP nnn` (R132). -/
def execJp (nnn : Addr) (s : State) : Result := s.completeAt (zextAddr nnn)

/-- `CALL nnn`: `StackOverflow` on a full stack, else pushes `PC + 2`, the address after the CALL (R133, D31). -/
def execCall (nnn : Addr) (s : State) : Result :=
  match s.push (s.pc + 2) with
  | none => s.raise .stackOverflow
  | some s' => s'.completeAt (zextAddr nnn)

/-- `SE Vx, nn` (R134). -/
def execSeImm (x : Nibble) (nn : Byte) (s : State) : Result := s.skipIf (s.getV x == nn)

/-- `SNE Vx, nn` (R135). -/
def execSneImm (x : Nibble) (nn : Byte) (s : State) : Result := s.skipIf (s.getV x != nn)

/-- `SE Vx, Vy` (R136). -/
def execSeReg (x y : Nibble) (s : State) : Result := s.skipIf (s.getV x == s.getV y)

/-- `SNE Vx, Vy` (R137). -/
def execSneReg (x y : Nibble) (s : State) : Result := s.skipIf (s.getV x != s.getV y)

/-- `JP V0, nnn`: `V0 + nnn`, not reduced to 12 bits (R138, D33). -/
def execJpV0 (nnn : Addr) (s : State) : Result := s.completeAt (zextByte (s.getV 0) + zextAddr nnn)

end Sys2Proof.Machine
end

