-- ==== Sys2Proof/Machine/Draw.lean ====
section
/-!
DEFINITION. The display instructions CLS and DRW and the display buffer's `draw_sprite` (43_display R170 to R175).
-/

namespace Sys2Proof.Machine

/-- One pixel of `draw_sprite`: XOR the sprite bit into the display, and note a pixel that goes from ON to OFF. -/
def drawPixel (acc : Display × Bool) (r : Fin 32) (c : Fin 64) (bit : Bool) : Display × Bool :=
  let old := acc.1.pixel r c
  (acc.1.setPixel r c (old ^^ bit), acc.2 || (bit && old))

/-- One row of `draw_sprite`: column `c` of the row takes bit `7 - c` of the byte (D17) and falls, wrapped, in
display row `top mod 32` and column `(left + c) mod 64` (R172, D7). -/
def drawRow (left top : Nat) (acc : Display × Bool) (row : Byte) : Display × Bool :=
  (List.range 8).foldl
    (fun acc c => drawPixel acc (Fin.ofNat 32 top) (Fin.ofNat 64 (left + c)) (row.getLsbD (7 - c))) acc

/-- The rows of `draw_sprite` from display row `top` downwards. -/
def drawRows (left : Nat) : Nat → Display × Bool → List Byte → Display × Bool
  | _, acc, [] => acc
  | top, acc, row :: rows => drawRows left (top + 1) (drawRow left top acc row) rows

/-- `draw_sprite(x0, y0, rows)`: the new display and the collision flag (R172). -/
def drawSprite (fb : Display) (x0 y0 : Byte) (rows : List Byte) : Display × Bool :=
  drawRows (x0.toNat % 64) (y0.toNat % 32) (fb, false) rows

/-- `CLS` (R171). -/
def execCls (s : State) : Result := { s with fb := Display.clear }.completeNext

/-- `DRW Vx, Vy, n`: `OutOfBoundsAccess` if a sprite row lies above 4095; else `n` rows from `I` drawn at the old
`Vx`, `Vy`, then `VF` = collision (R173). -/
def execDrw (x y n : Nibble) (s : State) : Result :=
  if s.dataInRange n.toNat then
    let rows := s.mem.readList (s.dataAddr 0) n.toNat
    let drawn := drawSprite s.fb (s.getV x) (s.getV y) rows
    ({ s with fb := drawn.1 }.setFlag drawn.2).completeNext
  else s.raise .outOfBoundsAccess

end Sys2Proof.Machine
end

