-- ==== Sys2Proof/Machine/Keypad.lean ====
section
/-!
DEFINITION. Keypad and timer instructions and the step of the key wait (44_keypad_timers R180 to R187).
-/

namespace Sys2Proof.Machine

/-- `SKP Vx` (R180). -/
def execSkp (x : Nibble) (s : State) : Result := s.skipIf (s.keyHeld x)

/-- `SKNP Vx` (R181). -/
def execSknp (x : Nibble) (s : State) : Result := s.skipIf (!s.keyHeld x)

/-- `LD Vx, K`: latches `x` and this Cycle event's key sample, and the core waits; `Vx` is written when the wait
ends (R182, D14). -/
def execLdKey (x : Nibble) (s : State) : Result :=
  { s with wreg := x, kprev := s.host.keys, run := .waitingForKey }.completeNext

/-- `LD Vx, DT` (R184). -/
def execLdFromDT (x : Nibble) (s : State) : Result := (s.setV x s.dt).completeNext

/-- `LD DT, Vx` (R185). -/
def execLdDT (x : Nibble) (s : State) : Result := { s with dt := s.getV x }.completeNext

/-- `LD ST, Vx` (R186). -/
def execLdST (x : Nibble) (s : State) : Result := { s with st := s.getV x }.completeNext

/-- The keys held now that were not held at the previous sample (R183). -/
def State.newKeys (s : State) : Word := s.host.keys &&& ~~~s.kprev

/-- The least key index set in `keys`, if any is set (R183, D15). -/
def leastKey (keys : Word) : Option Nat := (List.range 16).find? fun k => keys.getLsbD k

/-- What a Cycle event does while `RUN = WAITING_FOR_KEY`: no fetch; a newly pressed key ends the wait, else
`NoProgress`; the sample is kept in both cases (R183). -/
def State.waitStep (s : State) : State :=
  match leastKey s.newKeys with
  | some k => { s.setV s.wreg (BitVec.ofNat 8 k) with run := .ready, diag := .none, kprev := s.host.keys }
  | none => { s with diag := .noProgress, kprev := s.host.keys }

end Sys2Proof.Machine
end

