-- ==== Sys2Proof/Machine/Transfer.lean ====
section
/-!
DEFINITION. The memory transfer instructions (45_memory_transfer R190 to R194). The whole run of addresses is
checked before the first byte moves, and `I` keeps its value (R190).
-/

namespace Sys2Proof.Machine

/-- The three decimal digits of a byte, hundreds first (R191, D19). -/
def bcdDigits (a : Byte) : List Byte := [a / 100, a / 10 % 10, a % 10]

/-- `LD B, Vx` (R191). -/
def execLdB (x : Nibble) (s : State) : Result :=
  if s.dataInRange 3 then
    { s with mem := s.mem.writeList (s.dataAddr 0) (bcdDigits (s.getV x)) }.completeNext
  else s.raise .outOfBoundsAccess

/-- `LD [I], Vx`: `V0..Vx` to `I..I+x` (R192). -/
def execStoreRegs (x : Nibble) (s : State) : Result :=
  if s.dataInRange (x.toNat + 1) then
    { s with mem := s.mem.writeList (s.dataAddr 0) (s.regsTo x) }.completeNext
  else s.raise .outOfBoundsAccess

/-- `LD Vx, [I]`: `V0..Vx` from `I..I+x` (R193). -/
def execLoadRegs (x : Nibble) (s : State) : Result :=
  if s.dataInRange (x.toNat + 1) then
    (s.setRegsTo x fun k => s.mem.read (s.dataAddr k)).completeNext
  else s.raise .outOfBoundsAccess

end Sys2Proof.Machine
end

