-- ==== Sys2Proof/Machine/Events.lean ====
section
/-!
DEFINITION. The four events (00_scope R10): Reset (70_reset_and_hazards R240), Load (20_memory R70), Cycle
(40_cycle R110), Tick (60_exceptions R220); which event comes next; the outputs the host reads; and the
signal-level form of the interface (10_state R47).
-/

namespace Sys2Proof.Machine

/-! ### Reset, Load, Tick -/

/-- `Reset()`: the values of the table of R48; `MEM` and `STK` unchanged (R240). -/
def State.resetEvent (s : State) : State :=
  { s with
    v := Vector.replicate 16 0, i := 0, pc := BitVec.ofNat 16 Config.progBase, sp := 0, dt := 0, st := 0,
    fb := Display.clear, run := .ready, diag := .none, wreg := 0, kprev := 0 }

/-- `Load(bytes)`: copies at 512, or rejects the whole program if it is too long; the result goes to the host
(R70, R71). -/
def State.loadEvent (s : State) (bytes : List Byte) : State :=
  if programWellFormed bytes then
    { s with
      mem := s.mem.writeList Config.progBase bytes,
      host := { s.host with loadResult := some .none } }
  else { s with host := { s.host with loadResult := some .invalidProgramLength } }

/-- A timer's decrement: by one while above 0 (R220). -/
def timerTick (t : Byte) : Byte := if t.toNat > 0 then t - 1 else t

/-- `Tick()`: both timers, in every run state (R220, R221). -/
def State.tickEvent (s : State) : State := { s with dt := timerTick s.dt, st := timerTick s.st }

/-! ### Cycle -/

/-- The word at `PC` and `PC + 1`, big-endian (R66, R112). -/
def State.fetchWord (s : State) : Word :=
  wordOfBytes (s.mem.read s.pc.toNat) (s.mem.read (s.pc.toNat + 1))

/-- An unknown instruction: skipped and reported (R115). -/
def State.skipUnknown (s : State) : Result := .next { s with pc := s.pc + 2, diag := .unknownInstruction }

/-- A Cycle event with `RUN = READY`: fetch, decode, execute (R110, R112, R117). -/
def State.readyStep (s : State) : Result :=
  if s.pc.toNat > Config.lastFetch then s.raise .outOfBoundsAccess
  else
    match decodeWord s.fetchWord with
    | some i => exec i s
    | none => s.skipUnknown

/-- The state with this Cycle event's samples of `KEYS` and `RND` taken (R44, R45). -/
def State.sample (s : State) (keys : Word) (rnd : Byte) : State :=
  { s with host := { s.host with keys := keys, rnd := rnd } }

/-- What a Cycle event does once its inputs are sampled, by `RUN` (R110, R111). -/
def State.cycleEvent (s : State) : Result :=
  match s.run with
  | .halted => .next s
  | .waitingForKey => .next s.waitStep
  | .ready => s.readyStep

/-- One event (R10). -/
def State.runEvent (s : State) : Event → Result
  | .reset => .next s.resetEvent
  | .load bytes => .next (s.loadEvent bytes)
  | .cycle keys rnd => (s.sample keys rnd).cycleEvent
  | .tick => .next s.tickEvent

/-! ### The schedule (R75, R231; logs 4 and 5) -/

/-- The next event: the oldest the host has laid down; when it has laid down none, a Cycle event with free
inputs. -/
def State.nextEvent (s : State) : Event :=
  match s.host.pending with
  | [] => .cycle (Config.freeKeys s.host.draws) (Config.freeRnd s.host.draws)
  | e :: _ => e

/-- The state with the next event taken off the schedule. -/
def State.takeEvent (s : State) : State :=
  match s.host.pending with
  | [] => { s with host := { s.host with draws := s.host.draws + 1 } }
  | _ :: rest => { s with host := { s.host with pending := rest } }

/-- The host brings the machine up: Reset, then Load of a program (R244). -/
def bootSchedule (bytes : List Byte) : List Event := [.reset, .load bytes]

/-! ### Outputs and the signal-level form (R34, R46, R47) -/

/-- `SND`: a tone is audible while `ST` is not 0 (R34). -/
def State.snd (s : State) : Bool := s.st.toNat ≠ 0

/-- The `fb` port, row-major: bit `64 r + c` is `FB[r][c]` (R47). -/
def State.fbPort (s : State) : BitVec 2048 :=
  BitVec.ofFnLE fun (k : Fin 2048) => s.fb.pixel (Fin.ofNat 32 (k.val / 64)) (Fin.ofNat 64 k.val)

/-- The input ports at one clock edge (R47). -/
structure Edge where
  /-- `rst` -/
  rst : Bool
  /-- `cycle_stb` -/
  cycleStb : Bool
  /-- `tick_stb` -/
  tickStb : Bool
  /-- `keys` -/
  keys : Word
  /-- `rnd` -/
  rnd : Byte
  deriving DecidableEq, Repr

/-- The events of one clock edge: `rst` overrides the strobes; a Cycle comes before a Tick (R47, R209, D28;
log 12). -/
def edgeEvents (e : Edge) : List Event :=
  if e.rst then [.reset]
  else (if e.cycleStb then [.cycle e.keys e.rnd] else []) ++ (if e.tickStb then [.tick] else [])

/-! ### Placing one instruction (log 7) -/

/-- Where `placeWord` puts an instruction: at `PC`, or at 512 if no fetch can start at `PC`. -/
def State.placeAddr (s : State) : Word :=
  if s.pc.toNat > Config.lastFetch then BitVec.ofNat 16 Config.progBase else s.pc

/-- The state with an instruction word in memory where the next event, a READY Cycle event with the inputs the
state holds, fetches it. -/
def State.placeWord (s : State) (w : Word) : State :=
  { s with
    pc := s.placeAddr, run := .ready, mem := s.mem.writeList s.placeAddr.toNat (bytesOfWord w),
    host := { s.host with pending := .cycle s.host.keys s.host.rnd :: s.host.pending } }

end Sys2Proof.Machine
end

