-- ==== Sys2Proof/Machine/Step.lean ====
section
/-!
DEFINITION. One step of the machine is one event (00_scope R10, R75): the next one of the schedule.
-/

namespace Sys2Proof.Machine

/-- Take the next event off the schedule and run it. -/
def step (s : State) : Host.Outcome State Fault Refusal := s.takeEvent.runEvent s.nextEvent

/-- `s` with the instruction whose table bits are the low `nbits` of `w` placed so that the very next step fetches
and runs it: the word at `PC`, the core READY, a Cycle event next (log 7). -/
def State.withFetchWord (s : State) (nbits w : Nat) : State := s.placeWord (tableWord nbits w)

end Sys2Proof.Machine
end

