-- ==== Sys2Proof/Safety.lean ====
section
/-!
DEFINITION. What claims are stated in terms of: the invariant of 10_state R50, the new `PC` of a completing
instruction (R26), the sprite bit that falls on a pixel (43_display R172), and a run of a core that is not halted.
-/

namespace Sys2Proof.Machine

/-! ### The invariant (R50) -/

/-- `PC <= 4350`: the most `V0 + nnn` can be (R27, R50). -/
abbrev State.pcBounded (s : State) : Prop := s.pc.toNat ≤ 4350

/-- `RUN = HALTED` if and only if `DIAG` is one of the three fatal codes (R50). -/
abbrev State.haltReported (s : State) : Prop := s.run = .halted ↔ s.diag.fatal = true

/-- Every stack entry in use is at least 2 and at most 4096 (R50). -/
abbrev State.stackBounded (s : State) : Prop :=
  ∀ k : Fin 16, k.val < s.sp.val → 2 ≤ (s.stk[k.val]).toNat ∧ (s.stk[k.val]).toNat ≤ 4096

/-- The invariant of R50, with the canonical form of the model's memory (log 1). `SP`, `RUN` and `DIAG` have only
legal values by their types (log 10). -/
abbrev State.Inv (s : State) : Prop := s.mem.wf ∧ s.pcBounded ∧ s.haltReported ∧ s.stackBounded

/-- A safe run never reaches HALTED (D34: a halted state is a failure in every claim). -/
abbrev State.Safe (s : State) : Prop := s.run ≠ .halted

/-! ### The new PC (R26) -/

/-- Where `PC` goes when the instruction completes, read off the state before it (R26). -/
def nextPc (i : Instr) (s : State) : Word :=
  match i with
  | .cls => s.pc + 2
  | .ret => if h : 0 < s.sp.val then s.stk[s.sp.val - 1]'(by omega) else s.pc
  | .jp nnn => nnn.setWidth 16
  | .call nnn => nnn.setWidth 16
  | .seImm x nn => if s.getV x = nn then s.pc + 4 else s.pc + 2
  | .sneImm x nn => if s.getV x = nn then s.pc + 2 else s.pc + 4
  | .seReg x y => if s.getV x = s.getV y then s.pc + 4 else s.pc + 2
  | .ldImm _ _ => s.pc + 2
  | .addImm _ _ => s.pc + 2
  | .ldReg _ _ => s.pc + 2
  | .orReg _ _ => s.pc + 2
  | .andReg _ _ => s.pc + 2
  | .xorReg _ _ => s.pc + 2
  | .addReg _ _ => s.pc + 2
  | .subReg _ _ => s.pc + 2
  | .shr _ _ => s.pc + 2
  | .subnReg _ _ => s.pc + 2
  | .shl _ _ => s.pc + 2
  | .sneReg x y => if s.getV x = s.getV y then s.pc + 2 else s.pc + 4
  | .ldI _ => s.pc + 2
  | .jpV0 nnn => (s.getV 0).setWidth 16 + nnn.setWidth 16
  | .rnd _ _ => s.pc + 2
  | .drw _ _ _ => s.pc + 2
  | .skp x => if s.host.keys.getLsbD ((s.getV x).toNat % 16) then s.pc + 4 else s.pc + 2
  | .sknp x => if s.host.keys.getLsbD ((s.getV x).toNat % 16) then s.pc + 2 else s.pc + 4
  | .ldFromDT _ => s.pc + 2
  | .ldKey _ => s.pc + 2
  | .ldDT _ => s.pc + 2
  | .ldST _ => s.pc + 2
  | .addI _ => s.pc + 2
  | .ldB _ => s.pc + 2
  | .storeRegs _ => s.pc + 2
  | .loadRegs _ => s.pc + 2

/-! ### Sprites (R172) -/

/-- The bit of a sprite drawn with its top-left corner at column `left`, row `top` (both wrapped) that falls on
pixel `(r, c)`: bit `7 - dc` of row `dr`, where the pixel is `dr` rows below and `dc` columns right of the corner,
counted round the edges; no bit falls there unless `dr` is a row of the sprite and `dc` is at most 7. -/
def spriteBit (rows : List Byte) (left top : Nat) (r : Fin 32) (c : Fin 64) : Bool :=
  let dr := (r.val + 32 - top % 32) % 32
  let dc := (c.val + 64 - left % 64) % 64
  decide (dr < rows.length) && (decide (dc < 8) && (rows.getD dr 0).getLsbD (7 - dc))

end Sys2Proof.Machine
end

