-- ==== Sys2Proof/Certificates/Slice0/Obligations.lean ====
section
/-!
DEFINITION. The statements for the provers. Each docstring names the rules or the sections of spec/ it formalises; a
decision D<n> is one of 92_eei_decisions, a log entry is notes/assumptions/<n>.md.
-/

open Sys2Proof Sys2Proof.Machine

/-- The encoder and the decoder agree on all 33 instructions and every operand value (30_encoding sections 1
and 2). The bit positions are the spec's own choice (D1, D2; log 14). -/
def Obligations.EncodedInstructionsDecodeToThemselves : Prop :=
  ∀ i : Instr, decodeWord (encode i) = some i

/-- No bit of a known word is dropped; the ignored field `y` of the two shifts is kept in the syntax (log
11). -/
def Obligations.DecodedWordsEncodeToThemselves : Prop :=
  ∀ (w : Word) (i : Instr), decodeWord w = some i → encode i = w

/-- The decoder goes by nibbles, the opcode map by masks and matches (30_encoding section 2): they agree on
all words. -/
def Obligations.DecoderAgreesWithTheOpcodeMap : Prop :=
  ∀ w : Word,
    (∀ i, decodeWord w = some i → i.row ∈ opcodeTable ∧ i.row.admits w = true) ∧
    (decodeWord w = none ↔ ∀ r ∈ opcodeTable, r.admits w = false)

/-- The list of unknown words (30_encoding section 3), read off the word as a number. -/
def Obligations.UnknownWordsAreTheListedOnes : Prop :=
  ∀ w : Word, decodeWord w = none ↔
    (w.toNat / 4096 = 0 ∧ w.toNat ≠ 0x00E0 ∧ w.toNat ≠ 0x00EE) ∨
    (w.toNat / 4096 = 5 ∧ w.toNat % 16 ≠ 0) ∨
    (w.toNat / 4096 = 8 ∧ (8 ≤ w.toNat % 16 ∧ w.toNat % 16 ≤ 0xD ∨ w.toNat % 16 = 0xF)) ∨
    (w.toNat / 4096 = 9 ∧ w.toNat % 16 ≠ 0) ∨
    (w.toNat / 4096 = 0xE ∧ w.toNat % 256 ∉ [0x9E, 0xA1]) ∨
    (w.toNat / 4096 = 0xF ∧ w.toNat % 256 ∉ [0x07, 0x0A, 0x15, 0x18, 0x1E, 0x33, 0x55, 0x65])

/-- "The 33 rows are pairwise disjoint: no word matches two rows" (30_encoding section 2). -/
def Obligations.OpcodeRowsAreDisjoint : Prop :=
  ∀ (w : Word) (r q : Row), r ∈ opcodeTable → q ∈ opcodeTable →
    r.admits w = true → q.admits w = true → r = q

/-- A sanity statement on a few words of the spec's vectors. -/
def Obligations.SpecWordsDecodeToTheirInstructions : Prop :=
  decodeTableWord 16 0x00E0 = some .cls ∧ decodeTableWord 16 0x00EE = some .ret ∧
    decodeTableWord 16 0x1ABC = some (.jp 0xABC) ∧ decodeTableWord 16 0x3310 = some (.seImm 3 0x10) ∧
    decodeTableWord 16 0x5120 = some (.seReg 1 2) ∧ decodeTableWord 16 0x6A55 = some (.ldImm 0xA 0x55) ∧
    decodeTableWord 16 0x8125 = some (.subReg 1 2) ∧ decodeTableWord 16 0x812E = some (.shl 1 2) ∧
    decodeTableWord 16 0xB123 = some (.jpV0 0x123) ∧ decodeTableWord 16 0xC30F = some (.rnd 3 0x0F) ∧
    decodeTableWord 16 0xD01F = some (.drw 0 1 15) ∧ decodeTableWord 16 0xE3A1 = some (.sknp 3) ∧
    decodeTableWord 16 0xF21E = some (.addI 2) ∧ decodeTableWord 16 0xF255 = some (.storeRegs 2)

/-- What a step adds around `exec`: it takes the event off the schedule and latches the event's samples of
`KEYS` and `RND` (40_cycle section 1; logs 3 and 4). -/
def Obligations.StepRunsTheDecodedInstruction : Prop :=
  ∀ (s : State) (keys : Word) (rnd : Byte) (i : Instr),
    s.nextEvent = .cycle keys rnd → s.run = .ready → s.pc.toNat ≤ 4094 →
    decodeBytes [s.mem.read s.pc.toNat, s.mem.read (s.pc.toNat + 1)] = .known i [] →
    ∃ u : State, step s = exec i u ∧ u = { s with host := u.host } ∧ u.host.keys = keys ∧ u.host.rnd = rnd ∧
      u.host.pending = s.takeEvent.host.pending

/-- R112 and R115 (D6): fetch, its range check, the byte order, and the skipping of an unknown word. -/
def Obligations.ReadyCycleFetchesBigEndianOrHalts : Prop :=
  ∀ (s : State) (keys : Word) (rnd : Byte), s.nextEvent = .cycle keys rnd → s.run = .ready →
    (4094 < s.pc.toNat →
      step s = .next { s.takeEvent.sample keys rnd with run := .halted, diag := .outOfBoundsAccess }) ∧
    (s.pc.toNat ≤ 4094 → ∀ ins : Word,
      ins.extractLsb' 8 8 = s.mem.read s.pc.toNat → ins.extractLsb' 0 8 = s.mem.read (s.pc.toNat + 1) →
      (∀ i, decodeWord ins = some i → step s = exec i (s.takeEvent.sample keys rnd)) ∧
      (decodeWord ins = none →
        step s = .next { s.takeEvent.sample keys rnd with pc := s.pc + 2, diag := .unknownInstruction }))

/-- The model's own operation (logs 3, 4 and 7): `withFetchWord` stands for loading one instruction and
issuing one Cycle event. -/
def Obligations.PlacedInstructionIsRunNext : Prop :=
  ∀ (s : State) (nbits w : Nat) (i : Instr), decodeTableWord nbits w = some i →
    step (s.withFetchWord nbits w) = exec i { s.withFetchWord nbits w with host := s.host } ∧
    s.withFetchWord nbits w = { s with
      pc := if s.pc.toNat ≤ 4094 then s.pc else 512
      run := .ready
      mem := (s.withFetchWord nbits w).mem
      host := { s.host with pending := .cycle s.host.keys s.host.rnd :: s.host.pending } } ∧
    (∀ a, (s.withFetchWord nbits w).mem.read a =
      if a = (s.withFetchWord nbits w).pc.toNat then (tableWord nbits w).extractLsb' 8 8
      else if a = (s.withFetchWord nbits w).pc.toNat + 1 then (tableWord nbits w).extractLsb' 0 8
      else s.mem.read a)

/-- R111 (D34). -/
def Obligations.HaltedCycleChangesNothing : Prop :=
  ∀ (s : State) (keys : Word) (rnd : Byte), s.nextEvent = .cycle keys rnd → s.run = .halted →
    step s = .next (s.takeEvent.sample keys rnd) ∧
    s.takeEvent.sample keys rnd = { s with host := (s.takeEvent.sample keys rnd).host }

/-- R183 (D14, D15), both branches. -/
def Obligations.WaitingCycleTakesTheLeastNewKey : Prop :=
  ∀ (s : State) (keys : Word) (rnd : Byte), s.nextEvent = .cycle keys rnd → s.run = .waitingForKey →
    (keys &&& ~~~s.kprev = 0 →
      step s = .next { s.takeEvent.sample keys rnd with diag := .noProgress, kprev := keys }) ∧
    (∀ k < 16, (keys &&& ~~~s.kprev).getLsbD k = true →
      (∀ j < k, (keys &&& ~~~s.kprev).getLsbD j = false) →
      ∃ t, step s = .next t ∧
        t = { s.takeEvent.sample keys rnd with v := t.v, run := .ready, diag := .none, kprev := keys } ∧
        ∀ r, t.getV r = if r = s.wreg then BitVec.ofNat 8 k else s.getV r)

/-- R220 and R221 (D27). -/
def Obligations.TickDecrementsBothTimers : Prop :=
  ∀ s : State, s.nextEvent = .tick → ∃ t, step s = .next t ∧
    t = { s.takeEvent with dt := t.dt, st := t.st } ∧
    t.dt.toNat = (if s.dt.toNat > 0 then s.dt.toNat - 1 else 0) ∧
    t.st.toNat = (if s.st.toNat > 0 then s.st.toNat - 1 else 0)

/-- 60_exceptions section 5: after `t` Tick events with no timer write between. -/
def Obligations.TicksCountDownToZero : Prop :=
  ∀ (n : Nat) (s : State) (rest : List Event), s.host.pending = List.replicate n .tick ++ rest →
    ∃ t : State, Sys2Proof.core.run n s = .next t ∧
      t = { s with dt := t.dt, st := t.st, host := { s.host with pending := rest } } ∧
      t.dt.toNat = s.dt.toNat - n ∧ t.st.toNat = s.st.toNat - n

/-- R70. The result is returned to the host: the model keeps it in `host.loadResult` (log 6). -/
def Obligations.LoadCopiesOrRejectsWhole : Prop :=
  ∀ (s : State) (bytes : List Byte), s.nextEvent = .load bytes →
    (bytes.length ≤ 3584 → ∃ t, step s = .next t ∧
      t = { s.takeEvent with
        mem := t.mem, host := { s.takeEvent.host with loadResult := some .none } } ∧
      (∀ k (h : k < bytes.length), t.mem.read (512 + k) = bytes[k]) ∧
      (∀ a, a < 512 ∨ 512 + bytes.length ≤ a → t.mem.read a = s.mem.read a)) ∧
    (3584 < bytes.length → step s = .next { s.takeEvent with
      host := { s.takeEvent.host with loadResult := some .invalidProgramLength } })

/-- R240 (D21, D22). -/
def Obligations.ResetEventWritesTheResetValues : Prop :=
  ∀ s : State, s.nextEvent = .reset → ∃ t, step s = .next t ∧
    t.pc = 512 ∧ (∀ r c, t.fb.pixel r c = false) ∧ t.run = .ready ∧ (∀ k, t.getV k = 0) ∧ t.i = 0 ∧
    t.sp = 0 ∧ t.dt = 0 ∧ t.st = 0 ∧ t.diag = .none ∧ t.wreg = 0 ∧ t.kprev = 0 ∧
    t.mem = s.mem ∧ t.stk = s.stk ∧ t.host = s.takeEvent.host

/-- The choice of `MEM` and `STK` in `State.reset` is the model's (logs 1 and 2); every other field is what
Reset writes. -/
def Obligations.ResetStateIsAPostResetState : Prop :=
  ∀ s : State, s.nextEvent = .reset →
    step s = .next { State.reset with mem := s.mem, stk := s.stk, host := s.takeEvent.host }

/-- 70_reset_and_hazards section 2: the boot order. -/
def Obligations.BootLoadsTheProgram : Prop :=
  ∀ (s : State) (bytes : List Byte) (rest : List Event),
    s.host.pending = bootSchedule bytes ++ rest → bytes.length ≤ 3584 →
    ∃ t : State, Sys2Proof.core.run 2 s = .next t ∧ t.pc = 512 ∧ t.run = .ready ∧ t.sp = 0 ∧
      t.host.pending = rest ∧ (∀ k (h : k < bytes.length), t.mem.read (512 + k) = bytes[k])

/-- The signal-level form (D28; log 12): the order is seen through a timer write and a tick on one edge
(vector E14). -/
def Obligations.EdgeOrdersCycleBeforeTick : Prop :=
  ∀ e : Edge, (e.rst = true → edgeEvents e = [.reset]) ∧
    (e.rst = false → e.cycleStb = true → e.tickStb = true →
      ∀ (s : State) (x : Nibble) (rest : List Event), s.host.pending = edgeEvents e ++ rest → s.run = .ready →
        s.pc.toNat ≤ 4094 → decodeWord s.fetchWord = some (.ldDT x) →
        ∃ t : State, Sys2Proof.core.run 2 s = .next t ∧ t.dt.toNat = (s.getV x).toNat - 1 ∧
          t.host.pending = rest)

/-- 10_state sections 6 and 11. -/
def Obligations.OutputsShowTheState : Prop :=
  ∀ s : State, (s.snd = true ↔ s.st ≠ 0) ∧
    ∀ (r : Fin 32) (c : Fin 64), s.fbPort.getLsbD (64 * r.val + c.val) = s.fb.pixel r c

/-- 10_state section 13, at `State.reset` (its memory and stack are the model's choice, logs 1 and 2). -/
def Obligations.ResetStateSatisfiesTheInvariant : Prop :=
  State.reset.Inv

/-- 10_state section 13: the invariants hold after every event. The canonical form of memory is the model's
own (log 1). -/
def Obligations.EveryStepKeepsTheInvariant : Prop :=
  ∀ s t : State, s.Inv → step s = .next t → t.Inv

/-- The spec gives every event an effect in every state; a fatal error is a next state in HALTED (log 8). -/
def Obligations.EveryStepAnswersANextState : Prop :=
  ∀ s : State, ∃ t, step s = .next t

/-- 10_state section 13: "Once `RUN = HALTED`, only Reset changes `V`, `I`, `PC`, `SP`, `STK`, `FB`, `RUN`,
`DIAG`". -/
def Obligations.OnlyResetLeavesHalted : Prop :=
  ∀ s t : State, s.run = .halted → s.nextEvent ≠ .reset → step s = .next t →
    t = { s with dt := t.dt, st := t.st, mem := t.mem, host := t.host }

/-- 40_cycle section 4 (b): only these have an error condition. -/
def Obligations.OnlySixInstructionsCanHalt : Prop :=
  ∀ (i : Instr) (s t : State), exec i s = .next t → s.run ≠ .halted → t.run = .halted →
    i = .ret ∨ (∃ nnn, i = .call nnn) ∨ (∃ x y n, i = .drw x y n) ∨ (∃ x, i = .ldB x) ∨
      (∃ x, i = .storeRegs x) ∨ (∃ x, i = .loadRegs x)

/-- 10_state section 4 and 60_exceptions section 2 (D26), over all instructions at once. -/
def Obligations.InstructionsCompleteOrRaise : Prop :=
  ∀ (i : Instr) (s t : State), exec i s = .next t →
    (t.diag = .none → t.pc = nextPc i s) ∧
    (t.diag ≠ .none → t.diag.fatal = true ∧ t = { s with run := .halted, diag := t.diag })

/-- 10_state sections 2, 3, 5, 6, 7 and 9, 20_memory sections 1 and 5, over all instructions at once; `PC`
and `DIAG` are the subject of InstructionsCompleteOrRaise. The host bookkeeping is the model's own (logs 3
to 6). -/
def Obligations.EachPieceOfStateHasItsOwnWriters : Prop :=
  ∀ (i : Instr) (s t : State), exec i s = .next t →
    ((∀ x nn, i ≠ .ldImm x nn) → (∀ x nn, i ≠ .addImm x nn) → (∀ x y, i ≠ .ldReg x y) →
      (∀ x y, i ≠ .orReg x y) → (∀ x y, i ≠ .andReg x y) → (∀ x y, i ≠ .xorReg x y) →
      (∀ x y, i ≠ .addReg x y) → (∀ x y, i ≠ .subReg x y) → (∀ x y, i ≠ .shr x y) →
      (∀ x y, i ≠ .subnReg x y) → (∀ x y, i ≠ .shl x y) → (∀ x nn, i ≠ .rnd x nn) →
      (∀ x y n, i ≠ .drw x y n) → (∀ x, i ≠ .ldFromDT x) → (∀ x, i ≠ .loadRegs x) → t.v = s.v) ∧
    ((∀ nnn, i ≠ .ldI nnn) → (∀ x, i ≠ .addI x) → t.i = s.i) ∧
    ((∀ x, i ≠ .ldB x) → (∀ x, i ≠ .storeRegs x) → t.mem = s.mem) ∧
    (i ≠ .cls → (∀ x y n, i ≠ .drw x y n) → t.fb = s.fb) ∧
    (i ≠ .ret → (∀ nnn, i ≠ .call nnn) → t.sp = s.sp) ∧
    ((∀ nnn, i ≠ .call nnn) → t.stk = s.stk) ∧
    ((∀ x, i ≠ .ldDT x) → t.dt = s.dt) ∧ ((∀ x, i ≠ .ldST x) → t.st = s.st) ∧
    ((∀ x, i ≠ .ldKey x) → t.wreg = s.wreg ∧ t.kprev = s.kprev) ∧
    ((∀ x, i ≠ .ldKey x) → t.diag = .none → t.run = s.run) ∧
    (t.diag ≠ .none → t.run = .halted) ∧ t.host = s.host

/-- 10_state section 2 (D35): "Every one of them writes `VF` to exactly 0 or 1". -/
def Obligations.FlagsAreZeroOrOne : Prop :=
  ∀ (x y n : Nibble) (i : Instr) (s t : State),
    i ∈ [.addReg x y, .subReg x y, .subnReg x y, .shr x y, .shl x y, .drw x y n] →
    exec i s = .next t → t.diag = .none → t.getV 15 = 0 ∨ t.getV 15 = 1

/-- 10_state section 11: "Only SKP, SKNP, LD Vx,K and the waiting cycle read it". -/
def Obligations.KeysReachOnlyTheKeyInstructions : Prop :=
  ∀ (i : Instr) (s t : State) (keys : Word),
    (∀ x, i ≠ .skp x) → (∀ x, i ≠ .sknp x) → (∀ x, i ≠ .ldKey x) → exec i s = .next t →
    exec i (s.sample keys s.host.rnd) = .next (t.sample keys s.host.rnd)

/-- 10_state section 11: `RND` is "used only by the RND instruction". -/
def Obligations.RandomByteReachesOnlyRnd : Prop :=
  ∀ (i : Instr) (s t : State) (rnd : Byte),
    (∀ x nn, i ≠ .rnd x nn) → exec i s = .next t →
    exec i (s.sample s.host.keys rnd) = .next (t.sample s.host.keys rnd)

/-- The model's own representation of `MEM` (log 1): its canonical form is one list per contents. -/
def Obligations.EqualMemoriesAreEqualData : Prop :=
  ∀ m m' : Memory, m.wf → m'.wf → (∀ a, m.read a = m'.read a) → m = m'

/-- R171. -/
def Obligations.ClsClearsTheDisplay : Prop :=
  ∀ s : State, ∃ t, exec .cls s = .next t ∧
    t = { s with fb := t.fb, pc := s.pc + 2, diag := .none } ∧ ∀ r c, t.fb.pixel r c = false

/-- R131. -/
def Obligations.RetPopsOrUnderflows : Prop :=
  ∀ s : State,
    (∀ k : Fin 16, s.sp.val = k.val + 1 → ∃ t, exec .ret s = .next t ∧
      t = { s with sp := t.sp, pc := s.stk[k.val], diag := .none } ∧ t.sp.val = k.val) ∧
    (s.sp.val = 0 → exec .ret s = .next { s with run := .halted, diag := .stackUnderflow })

/-- R132. -/
def Obligations.JpSetsPc : Prop :=
  ∀ (nnn : Addr) (s : State), ∃ t, exec (.jp nnn) s = .next t ∧
    t = { s with pc := t.pc, diag := .none } ∧ t.pc.toNat = nnn.toNat

/-- R133 (D31). -/
def Obligations.CallPushesOrOverflows : Prop :=
  ∀ (nnn : Addr) (s : State),
    (s.sp.val < 16 → ∃ t, exec (.call nnn) s = .next t ∧
      t = { s with stk := t.stk, sp := t.sp, pc := t.pc, diag := .none } ∧ t.pc.toNat = nnn.toNat ∧
      t.sp.val = s.sp.val + 1 ∧
      ∀ k : Fin 16, t.stk[k.val] = if k.val = s.sp.val then s.pc + 2 else s.stk[k.val]) ∧
    (s.sp.val = 16 → exec (.call nnn) s = .next { s with run := .halted, diag := .stackOverflow })

/-- The source's property S6 (95_test_vectors part 1); a pop does not clear the entry (10_state section 5).
-/
def Obligations.CallThenRetReturns : Prop :=
  ∀ (nnn : Addr) (s : State), s.sp.val < 16 → ∃ t u, exec (.call nnn) s = .next t ∧ exec .ret t = .next u ∧
    u = { s with stk := u.stk, pc := s.pc + 2, diag := .none } ∧
    ∀ k : Fin 16, u.stk[k.val] = if k.val = s.sp.val then s.pc + 2 else s.stk[k.val]

/-- R134 to R137. -/
def Obligations.SkipsCompareRegisters : Prop :=
  ∀ (x y : Nibble) (nn : Byte) (s : State),
    exec (.seImm x nn) s =
      .next { s with pc := if (s.getV x).toNat = nn.toNat then s.pc + 4 else s.pc + 2, diag := .none } ∧
    exec (.sneImm x nn) s =
      .next { s with pc := if (s.getV x).toNat = nn.toNat then s.pc + 2 else s.pc + 4, diag := .none } ∧
    exec (.seReg x y) s =
      .next { s with pc := if (s.getV x).toNat = (s.getV y).toNat then s.pc + 4 else s.pc + 2, diag := .none } ∧
    exec (.sneReg x y) s =
      .next { s with pc := if (s.getV x).toNat = (s.getV y).toNat then s.pc + 2 else s.pc + 4, diag := .none }

/-- R138 (D33). -/
def Obligations.JpV0AddsWithoutMasking : Prop :=
  ∀ (nnn : Addr) (s : State), ∃ t, exec (.jpV0 nnn) s = .next t ∧
    t = { s with pc := t.pc, diag := .none } ∧ t.pc.toNat = (s.getV 0).toNat + nnn.toNat

/-- R151, R152, R153. -/
def Obligations.LoadsAndAddImmediateWriteVx : Prop :=
  ∀ (x y : Nibble) (nn : Byte) (s : State),
    (∃ t, exec (.ldImm x nn) s = .next t ∧ t = { s with v := t.v, pc := s.pc + 2, diag := .none } ∧
      ∀ k, t.getV k = if k = x then nn else s.getV k) ∧
    (∃ t, exec (.ldReg x y) s = .next t ∧ t = { s with v := t.v, pc := s.pc + 2, diag := .none } ∧
      ∀ k, t.getV k = if k = x then s.getV y else s.getV k) ∧
    (∃ t, exec (.addImm x nn) s = .next t ∧ t = { s with v := t.v, pc := s.pc + 2, diag := .none } ∧
      ∀ k, (t.getV k).toNat = if k = x then ((s.getV x).toNat + nn.toNat) % 256 else (s.getV k).toNat)

/-- R154 to R156 (D10), bit by bit. -/
def Obligations.LogicWritesVxAlone : Prop :=
  ∀ (x y : Nibble) (s : State),
    (∃ t, exec (.orReg x y) s = .next t ∧ t = { s with v := t.v, pc := s.pc + 2, diag := .none } ∧
      (∀ k, k ≠ x → t.getV k = s.getV k) ∧
      ∀ b < 8, (t.getV x).getLsbD b = ((s.getV x).getLsbD b || (s.getV y).getLsbD b)) ∧
    (∃ t, exec (.andReg x y) s = .next t ∧ t = { s with v := t.v, pc := s.pc + 2, diag := .none } ∧
      (∀ k, k ≠ x → t.getV k = s.getV k) ∧
      ∀ b < 8, (t.getV x).getLsbD b = ((s.getV x).getLsbD b && (s.getV y).getLsbD b)) ∧
    (∃ t, exec (.xorReg x y) s = .next t ∧ t = { s with v := t.v, pc := s.pc + 2, diag := .none } ∧
      (∀ k, k ≠ x → t.getV k = s.getV k) ∧
      ∀ b < 8, (t.getV x).getLsbD b = ((s.getV x).getLsbD b ^^ (s.getV y).getLsbD b))

/-- R157 (with x = 15 the flag stays, D9). -/
def Obligations.AddRegWritesSumThenCarry : Prop :=
  ∀ (x y : Nibble) (s : State), ∃ t, exec (.addReg x y) s = .next t ∧
    t = { s with v := t.v, pc := s.pc + 2, diag := .none } ∧
    (∀ k, k ≠ 15 → k ≠ x → t.getV k = s.getV k) ∧
    (x ≠ 15 → (t.getV x).toNat = ((s.getV x).toNat + (s.getV y).toNat) % 256) ∧
    t.getV 15 = if (s.getV x).toNat + (s.getV y).toNat > 255 then 1 else 0

/-- R158 and R159 (with x = 15 the flag stays, D9). -/
def Obligations.SubtractionsWriteDifferenceThenNoBorrow : Prop :=
  ∀ (x y : Nibble) (s : State),
    (∃ t, exec (.subReg x y) s = .next t ∧
      t = { s with v := t.v, pc := s.pc + 2, diag := .none } ∧
      (∀ k, k ≠ 15 → k ≠ x → t.getV k = s.getV k) ∧
      (x ≠ 15 → ((t.getV x).toNat : Int) = (((s.getV x).toNat : Int) - (s.getV y).toNat) % 256) ∧
      t.getV 15 = if (s.getV x).toNat ≥ (s.getV y).toNat then 1 else 0) ∧
    (∃ t, exec (.subnReg x y) s = .next t ∧
      t = { s with v := t.v, pc := s.pc + 2, diag := .none } ∧
      (∀ k, k ≠ 15 → k ≠ x → t.getV k = s.getV k) ∧
      (x ≠ 15 → ((t.getV x).toNat : Int) = (((s.getV y).toNat : Int) - (s.getV x).toNat) % 256) ∧
      t.getV 15 = if (s.getV y).toNat ≥ (s.getV x).toNat then 1 else 0)

/-- R160 and R161 (D8; with x = 15 the flag stays, D9). -/
def Obligations.ShiftsWriteVxThenTheBitShiftedOut : Prop :=
  ∀ (x y : Nibble) (s : State),
    (∃ t, exec (.shr x y) s = .next t ∧
      t = { s with v := t.v, pc := s.pc + 2, diag := .none } ∧
      (∀ k, k ≠ 15 → k ≠ x → t.getV k = s.getV k) ∧
      (x ≠ 15 → (t.getV x).toNat = (s.getV x).toNat / 2) ∧
      (t.getV 15).toNat = (s.getV x).toNat % 2) ∧
    (∃ t, exec (.shl x y) s = .next t ∧
      t = { s with v := t.v, pc := s.pc + 2, diag := .none } ∧
      (∀ k, k ≠ 15 → k ≠ x → t.getV k = s.getV k) ∧
      (x ≠ 15 → (t.getV x).toNat = 2 * (s.getV x).toNat % 256) ∧
      (t.getV 15).toNat = (s.getV x).toNat / 128)

/-- R162 and R163 (D12). -/
def Obligations.IndexLoadsAndAdds : Prop :=
  ∀ (nnn : Addr) (x : Nibble) (s : State),
    (∃ t, exec (.ldI nnn) s = .next t ∧ t = { s with i := t.i, pc := s.pc + 2, diag := .none } ∧
      t.i.toNat = nnn.toNat) ∧
    (∃ t, exec (.addI x) s = .next t ∧ t = { s with i := t.i, pc := s.pc + 2, diag := .none } ∧
      t.i.toNat = (s.i.toNat + (s.getV x).toNat) % 65536)

/-- R164 (D16: the byte is free), bit by bit. -/
def Obligations.RndMasksTheSampledByte : Prop :=
  ∀ (x : Nibble) (nn : Byte) (s : State), ∃ t, exec (.rnd x nn) s = .next t ∧
    t = { s with v := t.v, pc := s.pc + 2, diag := .none } ∧
    (∀ k, k ≠ x → t.getV k = s.getV k) ∧
    ∀ b < 8, (t.getV x).getLsbD b = (s.host.rnd.getLsbD b && nn.getLsbD b)

/-- R172 and R173 (D7, D17, D18, D35; log 14), pixel by pixel (`spriteBit`). -/
def Obligations.DrwXorsTheSpriteAndReportsCollision : Prop :=
  ∀ (x y n : Nibble) (s : State),
    (n.toNat = 0 ∨ s.i.toNat + n.toNat - 1 ≤ 4095 → ∃ t, exec (.drw x y n) s = .next t ∧
      t = { s with v := t.v, fb := t.fb, pc := s.pc + 2, diag := .none } ∧
      (∀ r c, t.fb.pixel r c = (s.fb.pixel r c ^^
        spriteBit ((List.range n.toNat).map fun k => s.mem.read (s.i.toNat + k))
          (s.getV x).toNat (s.getV y).toNat r c)) ∧
      (∀ k, k ≠ 15 → t.getV k = s.getV k) ∧
      ((∃ r c, s.fb.pixel r c = true ∧ t.fb.pixel r c = false) → t.getV 15 = 1) ∧
      ((∀ r c, s.fb.pixel r c = true → t.fb.pixel r c = true) → t.getV 15 = 0)) ∧
    (0 < n.toNat → 4095 < s.i.toNat + n.toNat - 1 →
      exec (.drw x y n) s = .next { s with run := .halted, diag := .outOfBoundsAccess })

/-- 43_display section 3 (a): XOR self-cancellation. -/
def Obligations.RedrawingErasesTheSprite : Prop :=
  ∀ (x y n : Nibble) (s t u : State), exec (.drw x y n) s = .next t → t.diag = .none →
    t.getV x = s.getV x → t.getV y = s.getV y → exec (.drw x y n) t = .next u →
    u.diag = .none ∧ u.fb = s.fb ∧
    (u.getV 15 = 1 ↔ ∃ r c, s.fb.pixel r c = false ∧ t.fb.pixel r c = true)

/-- 43_display section 3 (b) and (c). -/
def Obligations.DrawingOnAClearDisplayShowsTheSprite : Prop :=
  ∀ (x y n : Nibble) (s t : State), exec (.drw x y n) s = .next t → t.diag = .none →
    ((∀ r c, s.fb.pixel r c = false) → t.getV 15 = 0 ∧ ∀ r c, t.fb.pixel r c =
      spriteBit ((List.range n.toNat).map fun k => s.mem.read (s.i.toNat + k))
        (s.getV x).toNat (s.getV y).toNat r c) ∧
    ((∀ k < n.toNat, s.mem.read (s.i.toNat + k) = 0) → t.getV 15 = 0 ∧ t.fb = s.fb)

/-- R180, R181, R187 (D13). -/
def Obligations.KeySkipsTestTheLowFourBits : Prop :=
  ∀ (x : Nibble) (s : State),
    exec (.skp x) s = .next { s with
      pc := if s.host.keys.getLsbD ((s.getV x).toNat % 16) then s.pc + 4 else s.pc + 2, diag := .none } ∧
    exec (.sknp x) s = .next { s with
      pc := if s.host.keys.getLsbD ((s.getV x).toNat % 16) then s.pc + 2 else s.pc + 4, diag := .none }

/-- R182 (D14). -/
def Obligations.LdKeyBeginsTheWait : Prop :=
  ∀ (x : Nibble) (s : State), exec (.ldKey x) s = .next { s with
    wreg := x, kprev := s.host.keys, pc := s.pc + 2, run := .waitingForKey, diag := .none }

/-- R184, R185, R186. -/
def Obligations.TimerTransfersMoveOneByte : Prop :=
  ∀ (x : Nibble) (s : State),
    (∃ t, exec (.ldFromDT x) s = .next t ∧ t = { s with v := t.v, pc := s.pc + 2, diag := .none } ∧
      ∀ k, t.getV k = if k = x then s.dt else s.getV k) ∧
    exec (.ldDT x) s = .next { s with dt := s.getV x, pc := s.pc + 2, diag := .none } ∧
    exec (.ldST x) s = .next { s with st := s.getV x, pc := s.pc + 2, diag := .none }

/-- R191 (D19; log 14). -/
def Obligations.LdBStoresTheDecimalDigits : Prop :=
  ∀ (x : Nibble) (s : State),
    (s.i.toNat + 2 ≤ 4095 → ∃ t, exec (.ldB x) s = .next t ∧
      t = { s with mem := t.mem, pc := s.pc + 2, diag := .none } ∧
      (t.mem.read s.i.toNat).toNat = (s.getV x).toNat / 100 ∧
      (t.mem.read (s.i.toNat + 1)).toNat = (s.getV x).toNat / 10 % 10 ∧
      (t.mem.read (s.i.toNat + 2)).toNat = (s.getV x).toNat % 10 ∧
      ∀ a, a < s.i.toNat ∨ s.i.toNat + 2 < a → t.mem.read a = s.mem.read a) ∧
    (4095 < s.i.toNat + 2 →
      exec (.ldB x) s = .next { s with run := .halted, diag := .outOfBoundsAccess })

/-- R192 (D20, D11). -/
def Obligations.StoreRegsCopiesToMemory : Prop :=
  ∀ (x : Nibble) (s : State),
    (s.i.toNat + x.toNat ≤ 4095 → ∃ t, exec (.storeRegs x) s = .next t ∧
      t = { s with mem := t.mem, pc := s.pc + 2, diag := .none } ∧
      (∀ k : Nibble, k.toNat ≤ x.toNat → t.mem.read (s.i.toNat + k.toNat) = s.getV k) ∧
      ∀ a, a < s.i.toNat ∨ s.i.toNat + x.toNat < a → t.mem.read a = s.mem.read a) ∧
    (4095 < s.i.toNat + x.toNat →
      exec (.storeRegs x) s = .next { s with run := .halted, diag := .outOfBoundsAccess })

/-- R193 (D20, D11). -/
def Obligations.LoadRegsCopiesFromMemory : Prop :=
  ∀ (x : Nibble) (s : State),
    (s.i.toNat + x.toNat ≤ 4095 → ∃ t, exec (.loadRegs x) s = .next t ∧
      t = { s with v := t.v, pc := s.pc + 2, diag := .none } ∧
      ∀ k : Nibble, t.getV k = if k.toNat ≤ x.toNat then s.mem.read (s.i.toNat + k.toNat) else s.getV k) ∧
    (4095 < s.i.toNat + x.toNat →
      exec (.loadRegs x) s = .next { s with run := .halted, diag := .outOfBoundsAccess })

/-- 45_memory_transfer section 2: "LD [I],Vx followed by LD Vx,[I] with the same `I` and `x` restores
`V0..Vx`", here with any register values in between. -/
def Obligations.StoreThenLoadRestoresTheRegisters : Prop :=
  ∀ (x : Nibble) (s t : State) (v : Vector Byte 16), exec (.storeRegs x) s = .next t → t.diag = .none →
    ∃ u, exec (.loadRegs x) { t with v := v } = .next u ∧ u.diag = .none ∧
      ∀ k : Nibble, k.toNat ≤ x.toNat → u.getV k = s.getV k

/-- 20_memory section 6: a store is seen by every later instruction fetch with nothing in between. -/
def Obligations.StoreIsSeenByTheNextFetch : Prop :=
  ∀ (x : Nibble) (s t : State), 1 ≤ x.toNat → s.i = s.pc + 2 → exec (.storeRegs x) s = .next t →
    t.diag = .none → t.fetchWord = wordOfBytes (s.getV 0) (s.getV 1)

/-- 10_state section 9, 20_memory section 4, 60_exceptions section 1 (the numbers are the spec's own choice,
D25; logs 6 and 10). -/
def Obligations.HostReadsTheCodes : Prop :=
  ∀ s : State,
    (s.run.code = 0 ↔ s.run = .ready) ∧ (s.run.code = 1 ↔ s.run = .waitingForKey) ∧
    (s.run.code = 2 ↔ s.run = .halted) ∧ s.run.code ≠ 3 ∧
    (s.diag.code = 0 ↔ s.diag = .none) ∧ (s.diag.code = 1 ↔ s.diag = .outOfBoundsAccess) ∧
    (s.diag.code = 2 ↔ s.diag = .stackOverflow) ∧ (s.diag.code = 3 ↔ s.diag = .stackUnderflow) ∧
    (s.diag.code = 4 ↔ s.diag = .unknownInstruction) ∧ (s.diag.code = 6 ↔ s.diag = .noProgress) ∧
    s.diag.code ≠ 5 ∧ s.diag.code ≠ 7 ∧
    (s.diag.fatal = true ↔ s.diag.code = 1 ∨ s.diag.code = 2 ∨ s.diag.code = 3) ∧
    ∀ bytes, s.nextEvent = .load bytes → ∃ t r, step s = .next t ∧ t.host.loadResult = some r ∧
      r.code = (if bytes.length ≤ 3584 then 0 else 5) ∧ t.diag = s.diag
end

