-- ==== Sys2Proof/Laws/Decode.lean ====
section
/-!
SUPPORT. The laws of the word formats (30_encoding R91, R92): each field of a packed word is what was packed, and a
word is what its fields pack to.
-/

namespace Sys2Proof

/-! ### Bits of packed words -/

theorem getLsbD_packNNN (op : Nibble) (nnn : Addr) (k : Nat) :
    (packNNN op nnn).getLsbD k = if k < 12 then nnn.getLsbD k else op.getLsbD (k - 12) := by
  simpa [packNNN] using BitVec.getLsbD_append (x := op) (y := nnn) (i := k)

theorem getLsbD_packXNN (op x : Nibble) (nn : Byte) (k : Nat) :
    (packXNN op x nn).getLsbD k =
      if k < 8 then nn.getLsbD k else if k < 12 then x.getLsbD (k - 8) else op.getLsbD (k - 12) := by
  have h := BitVec.getLsbD_append (x := op ++ x) (y := nn) (i := k)
  have h' := BitVec.getLsbD_append (x := op) (y := x) (i := k - 8)
  rw [h'] at h
  refine h.trans ?_
  by_cases h1 : k < 8
  · simp [h1]
  · have h2 : (k - 8 < 4) = (k < 12) := by simp only [eq_iff_iff]; omega
    simp only [h1, h2, Nat.sub_sub]

theorem getLsbD_packXYN (op x y n : Nibble) (k : Nat) :
    (packXYN op x y n).getLsbD k =
      if k < 4 then n.getLsbD k else if k < 8 then y.getLsbD (k - 4)
      else if k < 12 then x.getLsbD (k - 8) else op.getLsbD (k - 12) := by
  have h := BitVec.getLsbD_append (x := op ++ x ++ y) (y := n) (i := k)
  have h' := BitVec.getLsbD_append (x := op ++ x) (y := y) (i := k - 4)
  have h'' := BitVec.getLsbD_append (x := op) (y := x) (i := k - 4 - 4)
  rw [h', h''] at h
  refine h.trans ?_
  by_cases h1 : k < 4
  · simp [h1]
  · have h2 : (k - 4 < 4) = (k < 8) := by simp only [eq_iff_iff]; omega
    simp only [h1, h2, Nat.sub_sub]
    by_cases h4 : k < 8
    · simp [h4]
    · have h5 : (k - 8 < 4) = (k < 12) := by simp only [eq_iff_iff]; omega
      simp [h4, h5]

/-! ### Fields of packed words -/

theorem getLsbD_field (w : Word) (lo len k : Nat) :
    (w.extractLsb' lo len).getLsbD k = (decide (k < len) && w.getLsbD (lo + k)) :=
  BitVec.getLsbD_extractLsb' ..

@[simp] theorem fieldOp_packNNN (op : Nibble) (nnn : Addr) : fieldOp (packNNN op nnn) = op :=
  BitVec.eq_of_getLsbD_eq fun k hk => by
    have h : ¬ 12 + k < 12 := by omega
    simp only [fieldOp, getLsbD_field, getLsbD_packNNN, h, hk]
    simp

@[simp] theorem fieldNNN_packNNN (op : Nibble) (nnn : Addr) : fieldNNN (packNNN op nnn) = nnn :=
  BitVec.eq_of_getLsbD_eq fun k hk => by
    simp only [fieldNNN, getLsbD_field, getLsbD_packNNN, Nat.zero_add, hk]
    simp

@[simp] theorem fieldOp_packXNN (op x : Nibble) (nn : Byte) : fieldOp (packXNN op x nn) = op :=
  BitVec.eq_of_getLsbD_eq fun k hk => by
    have h : ¬ 12 + k < 8 := by omega
    have h' : ¬ 12 + k < 12 := by omega
    simp only [fieldOp, getLsbD_field, getLsbD_packXNN, h, h', hk]
    simp

@[simp] theorem fieldX_packXNN (op x : Nibble) (nn : Byte) : fieldX (packXNN op x nn) = x :=
  BitVec.eq_of_getLsbD_eq fun k hk => by
    have h : ¬ 8 + k < 8 := by omega
    have h' : 8 + k < 12 := by omega
    simp only [fieldX, getLsbD_field, getLsbD_packXNN, h, h', hk]
    simp

@[simp] theorem fieldNN_packXNN (op x : Nibble) (nn : Byte) : fieldNN (packXNN op x nn) = nn :=
  BitVec.eq_of_getLsbD_eq fun k hk => by
    simp only [fieldNN, getLsbD_field, getLsbD_packXNN, Nat.zero_add, hk]
    simp

@[simp] theorem fieldOp_packXYN (op x y n : Nibble) : fieldOp (packXYN op x y n) = op :=
  BitVec.eq_of_getLsbD_eq fun k hk => by
    have h : ¬ 12 + k < 4 := by omega
    have h' : ¬ 12 + k < 8 := by omega
    have h'' : ¬ 12 + k < 12 := by omega
    simp only [fieldOp, getLsbD_field, getLsbD_packXYN, h, h', h'', hk]
    simp

@[simp] theorem fieldX_packXYN (op x y n : Nibble) : fieldX (packXYN op x y n) = x :=
  BitVec.eq_of_getLsbD_eq fun k hk => by
    have h : ¬ 8 + k < 4 := by omega
    have h' : ¬ 8 + k < 8 := by omega
    have h'' : 8 + k < 12 := by omega
    simp only [fieldX, getLsbD_field, getLsbD_packXYN, h, h', h'', hk]
    simp

@[simp] theorem fieldY_packXYN (op x y n : Nibble) : fieldY (packXYN op x y n) = y :=
  BitVec.eq_of_getLsbD_eq fun k hk => by
    have h : ¬ 4 + k < 4 := by omega
    have h' : 4 + k < 8 := by omega
    simp only [fieldY, getLsbD_field, getLsbD_packXYN, h, h', hk]
    simp

@[simp] theorem fieldN_packXYN (op x y n : Nibble) : fieldN (packXYN op x y n) = n :=
  BitVec.eq_of_getLsbD_eq fun k hk => by
    simp only [fieldN, getLsbD_field, getLsbD_packXYN, Nat.zero_add, hk]
    simp

/-! ### A word is what its fields pack to -/

theorem packNNN_fields (w : Word) : packNNN (fieldOp w) (fieldNNN w) = w :=
  BitVec.eq_of_getLsbD_eq fun k hk => by
    simp only [getLsbD_packNNN, fieldOp, fieldNNN, getLsbD_field]
    by_cases h : k < 12
    · simp [h]
    · have h2 : k - 12 < 4 := by omega
      have h3 : 12 + (k - 12) = k := by omega
      simp [h, h2, h3]

theorem packXNN_fields (w : Word) : packXNN (fieldOp w) (fieldX w) (fieldNN w) = w :=
  BitVec.eq_of_getLsbD_eq fun k hk => by
    simp only [getLsbD_packXNN, fieldOp, fieldX, fieldNN, getLsbD_field]
    by_cases h : k < 8
    · simp [h]
    · by_cases h' : k < 12
      · have h2 : k - 8 < 4 := by omega
        have h3 : 8 + (k - 8) = k := by omega
        simp [h, h', h2, h3]
      · have h2 : k - 12 < 4 := by omega
        have h3 : 12 + (k - 12) = k := by omega
        simp [h, h', h2, h3]

theorem packXYN_fields (w : Word) : packXYN (fieldOp w) (fieldX w) (fieldY w) (fieldN w) = w :=
  BitVec.eq_of_getLsbD_eq fun k hk => by
    simp only [getLsbD_packXYN, fieldOp, fieldX, fieldY, fieldN, getLsbD_field]
    by_cases h : k < 4
    · simp [h]
    · by_cases h' : k < 8
      · have h2 : k - 4 < 4 := by omega
        have h3 : 4 + (k - 4) = k := by omega
        simp [h, h', h2, h3]
      · by_cases h'' : k < 12
        · have h2 : k - 8 < 4 := by omega
          have h3 : 8 + (k - 8) = k := by omega
          simp [h, h', h'', h2, h3]
        · have h2 : k - 12 < 4 := by omega
          have h3 : 12 + (k - 12) = k := by omega
          simp [h, h', h'', h2, h3]

/-! ### Byte order -/

/-- The two bytes of a word, put together again, are the word (R66). -/
theorem wordOfBytes_bytesOfWord (w : Word) :
    wordOfBytes (w.extractLsb' 8 8) (w.extractLsb' 0 8) = w :=
  BitVec.eq_of_getLsbD_eq fun k hk => by
    have h := BitVec.getLsbD_append (x := w.extractLsb' 8 8) (y := w.extractLsb' 0 8) (i := k)
    refine h.trans ?_
    simp only [getLsbD_field]
    by_cases h1 : k < 8
    · simp [h1]
    · have h2 : k - 8 < 8 := by omega
      have h3 : 8 + (k - 8) = k := by omega
      simp [h1, h2, h3]

end Sys2Proof
end

