-- ==== Sys2Proof/Laws/Draw.lean ====
section
/-!
SUPPORT. The laws of the display: a pixel after a write, and what `draw_sprite` does to every pixel and to the
collision flag, pixel by pixel instead of by loops (43_display R172).
-/

namespace Sys2Proof.Machine

/-! ### Pixels -/

/-- A pixel write is seen at its pixel and nowhere else. -/
theorem Display.pixel_setPixel (fb : Display) (r r' : Fin 32) (c c' : Fin 64) (b : Bool) :
    (fb.setPixel r c b).pixel r' c' = if r' = r ∧ c' = c then b else fb.pixel r' c' := by
  unfold Display.pixel Display.setPixel
  simp only [Vector.getElem_set, Fin.ext_iff]
  by_cases hr : r.val = r'.val
  · by_cases hc : c.val = c'.val
    · simp [hr, hc]
    · simp [hr, hc, Ne.symm hc]
  · simp [hr, Ne.symm hr]

/-- A cleared display is OFF everywhere (R170). -/
@[simp] theorem Display.pixel_clear (r : Fin 32) (c : Fin 64) : Display.clear.pixel r c = false := by
  simp [Display.clear, Display.pixel]

/-- Two displays that look alike are equal. -/
theorem Display.ext_pixel {fb fb' : Display} (h : ∀ r c, fb.pixel r c = fb'.pixel r c) : fb = fb' :=
  Vector.ext fun r hr => Vector.ext fun c hc => h ⟨r, hr⟩ ⟨c, hc⟩

/-! ### One row -/

/-- How far column `c` lies to the right of column `left`, counted round the edge. -/
def colDist (left : Nat) (c : Fin 64) : Nat := (c.val + 64 - left % 64) % 64

/-- How far row `r` lies below row `top`, counted round the edge. -/
def rowDist (top : Nat) (r : Fin 32) : Nat := (r.val + 32 - top % 32) % 32

theorem eq_ofNat_iff_colDist {left n : Nat} (hn : n < 64) (c : Fin 64) :
    c = Fin.ofNat 64 (left + n) ↔ colDist left c = n := by
  simp only [Fin.ext_iff, Fin.ofNat, colDist]
  omega

theorem eq_ofNat_iff_rowDist {top : Nat} (r : Fin 32) : r = Fin.ofNat 32 top ↔ rowDist top r = 0 := by
  simp only [Fin.ext_iff, Fin.ofNat, rowDist]
  omega

/-- What the first `n` columns of a row have done: XORed their bits in, and noted a pixel under one of them that
was ON. -/
theorem drawRow_columns (left top : Nat) (acc : Display × Bool) (row : Byte) (n : Nat) (hn : n ≤ 8) :
    let out := (List.range n).foldl
      (fun acc c => drawPixel acc (Fin.ofNat 32 top) (Fin.ofNat 64 (left + c)) (row.getLsbD (7 - c))) acc
    (∀ r c, out.1.pixel r c =
      (acc.1.pixel r c ^^
        (decide (rowDist top r = 0) && (decide (colDist left c < n) && row.getLsbD (7 - colDist left c))))) ∧
    (out.2 = true ↔ acc.2 = true ∨
      ∃ r c, rowDist top r = 0 ∧ colDist left c < n ∧ row.getLsbD (7 - colDist left c) = true ∧
        acc.1.pixel r c = true) := by
  induction n with
  | zero => simp
  | succ n ih =>
    obtain ⟨ihp, ihc⟩ := ih (by omega)
    rw [List.range_succ, List.foldl_append]
    simp only [List.foldl_cons, List.foldl_nil]
    generalize hout : (List.range n).foldl _ acc = out at ihp ihc
    have hold : out.1.pixel (Fin.ofNat 32 top) (Fin.ofNat 64 (left + n)) =
        acc.1.pixel (Fin.ofNat 32 top) (Fin.ofNat 64 (left + n)) := by
      have := (eq_ofNat_iff_colDist (left := left) (n := n) (by omega) _).mp rfl
      rw [ihp, this]
      simp
    constructor
    · intro r c
      simp only [drawPixel, Display.pixel_setPixel, eq_ofNat_iff_rowDist,
        eq_ofNat_iff_colDist (left := left) (n := n) (by omega)]
      by_cases hr : rowDist top r = 0
      · by_cases hc : colDist left c = n
        · rw [if_pos ⟨hr, hc⟩, hold, (eq_ofNat_iff_rowDist r).mpr hr,
            (eq_ofNat_iff_colDist (left := left) (n := n) (by omega) c).mpr hc]
          have h0 := (eq_ofNat_iff_rowDist (top := top) _).mp rfl
          have h1 := (eq_ofNat_iff_colDist (left := left) (n := n) (by omega) _).mp rfl
          rw [h0, h1]
          simp
        · rw [if_neg (by tauto), ihp]
          have : colDist left c < n + 1 ↔ colDist left c < n := by omega
          simp only [this]
      · rw [if_neg (by tauto), ihp]
        simp [hr]
    · simp only [drawPixel, Bool.or_eq_true, Bool.and_eq_true, hold, ihc]
      constructor
      · rintro ((h | ⟨r, c, hr, hc, hb, hp⟩) | ⟨hb, hp⟩)
        · exact .inl h
        · exact .inr ⟨r, c, hr, by omega, hb, hp⟩
        · refine .inr ⟨_, _, (eq_ofNat_iff_rowDist (top := top) _).mp rfl, ?_, ?_, hp⟩
          · rw [(eq_ofNat_iff_colDist (left := left) (n := n) (by omega) _).mp rfl]
            omega
          · rw [(eq_ofNat_iff_colDist (left := left) (n := n) (by omega) _).mp rfl]
            exact hb
      · rintro (h | ⟨r, c, hr, hc, hb, hp⟩)
        · exact .inl (.inl h)
        · by_cases hcn : colDist left c = n
          · rw [(eq_ofNat_iff_rowDist r).mpr hr,
              (eq_ofNat_iff_colDist (left := left) (n := n) (by omega) c).mpr hcn] at hp
            exact .inr ⟨hcn ▸ hb, hp⟩
          · exact .inl (.inr ⟨r, c, hr, by omega, hb, hp⟩)

/-- What one sprite row does to every pixel. -/
theorem pixel_drawRow (left top : Nat) (acc : Display × Bool) (row : Byte) (r : Fin 32) (c : Fin 64) :
    (drawRow left top acc row).1.pixel r c =
      (acc.1.pixel r c ^^
        (decide (rowDist top r = 0) && (decide (colDist left c < 8) && row.getLsbD (7 - colDist left c)))) :=
  (drawRow_columns left top acc row 8 (Nat.le_refl 8)).1 r c

/-- When one sprite row reports a collision. -/
theorem drawRow_collision (left top : Nat) (acc : Display × Bool) (row : Byte) :
    (drawRow left top acc row).2 = true ↔ acc.2 = true ∨
      ∃ r c, rowDist top r = 0 ∧ colDist left c < 8 ∧ row.getLsbD (7 - colDist left c) = true ∧
        acc.1.pixel r c = true :=
  (drawRow_columns left top acc row 8 (Nat.le_refl 8)).2

/-! ### The whole sprite -/

theorem spriteBit_eq (rows : List Byte) (left top : Nat) (r : Fin 32) (c : Fin 64) :
    spriteBit rows left top r c =
      (decide (rowDist top r < rows.length) &&
        (decide (colDist left c < 8) && (rows.getD (rowDist top r) 0).getLsbD (7 - colDist left c))) := rfl

/-- A sprite's first row lies at its top, the others one row further down. -/
theorem spriteBit_cons (row : Byte) (rows : List Byte) (left top : Nat) (r : Fin 32)
    (c : Fin 64) : spriteBit (row :: rows) left top r c =
      if rowDist top r = 0 then decide (colDist left c < 8) && row.getLsbD (7 - colDist left c)
      else spriteBit rows left (top + 1) r c := by
  rw [spriteBit_eq, spriteBit_eq]
  by_cases h : rowDist top r = 0
  · simp [h]
  · obtain ⟨d, hd⟩ := Nat.exists_eq_succ_of_ne_zero h
    have hd' : rowDist (top + 1) r = d := by
      have := r.isLt
      simp only [rowDist] at hd ⊢
      omega
    rw [if_neg h, hd, hd']
    simp

/-- On the row where the first sprite row lies, the others have no bit. -/
theorem spriteBit_tail (rows : List Byte) (hlen : rows.length < 32) (left top : Nat) (r : Fin 32) (c : Fin 64)
    (h : rowDist top r = 0) : spriteBit rows left (top + 1) r c = false := by
  have hd : rowDist (top + 1) r = 31 := by
    have := r.isLt
    simp only [rowDist] at h ⊢
    omega
  have : ¬ 31 < rows.length := by omega
  simp [spriteBit_eq, hd, this]

/-- What the rows of a sprite do: every pixel is XORed with the sprite bit that falls on it, and the collision
flag is set exactly when some pixel under a 1 bit was ON. -/
theorem drawRows_spec (left : Nat) (rows : List Byte) (hlen : rows.length ≤ 32) (top : Nat)
    (acc : Display × Bool) :
    (∀ r c, (drawRows left top acc rows).1.pixel r c =
      (acc.1.pixel r c ^^ spriteBit rows left top r c)) ∧
    ((drawRows left top acc rows).2 = true ↔ acc.2 = true ∨
      ∃ r c, spriteBit rows left top r c = true ∧ acc.1.pixel r c = true) := by
  induction rows generalizing top acc with
  | nil => simp [drawRows, spriteBit_eq]
  | cons row rows ih =>
    simp only [List.length_cons] at hlen
    obtain ⟨ihp, ihc⟩ := ih (by omega) (top + 1) (drawRow left top acc row)
    constructor
    · intro r c
      rw [drawRows, ihp, pixel_drawRow, spriteBit_cons]
      by_cases h : rowDist top r = 0
      · simp [h, spriteBit_tail rows (by omega) left top r c h]
      · simp [h]
    · rw [drawRows, ihc, drawRow_collision, or_assoc]
      refine or_congr_right ⟨?_, ?_⟩
      · rintro (⟨r, c, hr, hc, hb, hp⟩ | ⟨r, c, hb, hp⟩)
        · exact ⟨r, c, by simp [spriteBit_cons, hr, hc, hb], hp⟩
        · have hr : rowDist top r ≠ 0 := fun hr => by
            rw [spriteBit_tail rows (by omega) left top r c hr] at hb
            cases hb
          rw [pixel_drawRow] at hp
          exact ⟨r, c, by simpa [spriteBit_cons, hr] using hb, by simpa [hr] using hp⟩
      · rintro ⟨r, c, hb, hp⟩
        rw [spriteBit_cons] at hb
        by_cases hr : rowDist top r = 0
        · simp only [hr, if_true, Bool.and_eq_true, decide_eq_true_eq] at hb
          exact .inl ⟨r, c, hr, hb.1, hb.2, hp⟩
        · simp only [hr, if_false] at hb
          exact .inr ⟨r, c, hb, by simpa [pixel_drawRow, hr] using hp⟩

theorem spriteBit_mod (rows : List Byte) (left top : Nat) (r : Fin 32) (c : Fin 64) :
    spriteBit rows (left % 64) (top % 32) r c = spriteBit rows left top r c := by
  simp [spriteBit]

/-- `draw_sprite`, pixel by pixel (R172). -/
theorem pixel_drawSprite (fb : Display) (x0 y0 : Byte) (rows : List Byte) (hlen : rows.length ≤ 32)
    (r : Fin 32) (c : Fin 64) :
    (drawSprite fb x0 y0 rows).1.pixel r c = (fb.pixel r c ^^ spriteBit rows x0.toNat y0.toNat r c) := by
  rw [← spriteBit_mod]
  exact (drawRows_spec (x0.toNat % 64) rows hlen (y0.toNat % 32) (fb, false)).1 r c

/-- `draw_sprite` reports a collision exactly when some pixel goes from ON to OFF (R172). -/
theorem drawSprite_collision (fb : Display) (x0 y0 : Byte) (rows : List Byte) (hlen : rows.length ≤ 32) :
    (drawSprite fb x0 y0 rows).2 = true ↔
      ∃ r c, spriteBit rows x0.toNat y0.toNat r c = true ∧ fb.pixel r c = true := by
  have h := (drawRows_spec (x0.toNat % 64) rows hlen (y0.toNat % 32) (fb, false)).2
  simp only [spriteBit_mod, Bool.false_eq_true, false_or] at h
  exact h

end Sys2Proof.Machine
end

