-- ==== Sys2Proof/Laws/Events.lean ====
section
/-!
SUPPORT. The laws of the events: a run step by step, what a READY cycle can do, which key ends a wait, a timer's
decrement as a number, and the two bytes of a fetched word.
-/

namespace Sys2Proof.Machine

/-! ### Runs -/

/-- A run whose first step answers a next state goes on from there. -/
theorem core_run_succ (n : Nat) {s t : State} (h : step s = .next t) :
    Sys2Proof.core.run (n + 1) s = Sys2Proof.core.run n t := by
  have h' : Sys2Proof.core.step s = .next t := h
  simp only [Host.Core.run, h']

/-- The next event, and the state without it, when the schedule lists one. -/
theorem State.nextEvent_cons {s : State} {e : Event} {rest : List Event} (h : s.host.pending = e :: rest) :
    s.nextEvent = e ∧ s.takeEvent = { s with host := { s.host with pending := rest } } := by
  simp [State.nextEvent, State.takeEvent, h]

/-! ### Cycles -/

/-- All a READY cycle can do: halt on the fetch, skip an unknown word, or execute the decoded instruction
(40_cycle R110). -/
theorem State.readyStep_cases (s : State) :
    (4094 < s.pc.toNat ∧ s.readyStep = s.raise .outOfBoundsAccess) ∨
    (s.pc.toNat ≤ 4094 ∧ decodeWord s.fetchWord = none ∧ s.readyStep = s.skipUnknown) ∨
    (s.pc.toNat ≤ 4094 ∧ ∃ i, decodeWord s.fetchWord = some i ∧ s.readyStep = exec i s) := by
  unfold State.readyStep
  split
  · exact .inl ⟨‹_›, rfl⟩
  · split
    · exact .inr (.inr ⟨Nat.le_of_not_lt ‹_›, _, ‹_›, rfl⟩)
    · exact .inr (.inl ⟨Nat.le_of_not_lt ‹_›, ‹_›, rfl⟩)

theorem wordOfBytes_high (b0 b1 : Byte) : (wordOfBytes b0 b1).extractLsb' 8 8 = b0 :=
  BitVec.eq_of_getLsbD_eq fun k hk => by
    have h := BitVec.getLsbD_append (x := b0) (y := b1) (i := 8 + k)
    simp only [wordOfBytes, getLsbD_field]
    rw [h]
    simp [hk]

theorem wordOfBytes_low (b0 b1 : Byte) : (wordOfBytes b0 b1).extractLsb' 0 8 = b1 :=
  BitVec.eq_of_getLsbD_eq fun k hk => by
    have h := BitVec.getLsbD_append (x := b0) (y := b1) (i := 0 + k)
    simp only [wordOfBytes, getLsbD_field]
    rw [h]
    simp [hk]

/-- Where an instruction is placed, with the numbers written out (log 7). -/
theorem State.placeAddr_eq (s : State) : s.placeAddr = if s.pc.toNat ≤ 4094 then s.pc else 512 := by
  unfold State.placeAddr
  by_cases h : s.pc.toNat ≤ 4094
  · rw [if_neg (Nat.not_lt.mpr h), if_pos h]
  · rw [if_pos (Nat.lt_of_not_le h), if_neg h]
    rfl

/-! ### Keys and timers -/

/-- The key that ends a wait is the least one set (44_keypad_timers R183). -/
theorem leastKey_eq_some {keys : Word} {k : Nat} (hk : k < 16) (h : keys.getLsbD k = true)
    (hlt : ∀ j < k, keys.getLsbD j = false) : leastKey keys = some k := by
  rw [leastKey, List.find?_range_eq_some]
  exact ⟨h, by simpa using hk, fun j hj => by simp [hlt j hj]⟩

@[simp] theorem leastKey_zero : leastKey 0 = none := by decide

/-- A timer's decrement as a number: it stops at 0 (60_exceptions R220). -/
theorem timerTick_toNat (t : Byte) : (timerTick t).toNat = t.toNat - 1 := by
  unfold timerTick
  split <;> bv_omega

/-! ### Load -/

/-- The two answers to a Load (20_memory R70). -/
theorem State.loadEvent_eq (s : State) (bytes : List Byte) :
    (bytes.length ≤ 3584 ∧ s.loadEvent bytes =
      { s with mem := s.mem.writeList 512 bytes, host := { s.host with loadResult := some .none } }) ∨
    (3584 < bytes.length ∧ s.loadEvent bytes =
      { s with host := { s.host with loadResult := some .invalidProgramLength } }) := by
  unfold State.loadEvent programWellFormed
  by_cases h : bytes.length ≤ 3584
  · exact .inl ⟨h, by simp only [Config.progMax, h]; rfl⟩
  · exact .inr ⟨by omega, by simp only [Config.progMax, h]; rfl⟩

end Sys2Proof.Machine
end

