-- ==== Sys2Proof/Laws/Memory.lean ====
section
/-!
SUPPORT. The laws of memory: a read after a write, the canonical form kept by every operation, and equal reads
meaning equal data.
-/

namespace Sys2Proof.Machine

/-! ### Reads after writes, in any list -/

theorem Memory.read_erase (m : Memory) (a x : Nat) :
    Memory.read (Memory.erase m a) x = if x = a then Config.unlistedByte else Memory.read m x := by
  induction m with
  | nil => simp [Memory.erase, Memory.read]
  | cons c m ih =>
    obtain ⟨k, b⟩ := c
    by_cases hk : k = a
    · subst hk
      have : Memory.erase ((k, b) :: m) k = Memory.erase m k := by simp [Memory.erase]
      rw [this, ih]
      by_cases hx : x = k
      · simp [hx]
      · simp [Memory.read, hx, Ne.symm hx]
    · have : Memory.erase ((k, b) :: m) a = (k, b) :: Memory.erase m a := by simp [Memory.erase, hk]
      rw [this]
      by_cases hx : k = x
      · subst hx; simp [Memory.read, hk]
      · simp [Memory.read, hx, ih]

theorem Memory.read_insert (m : Memory) (a x : Nat) (b : Byte) :
    Memory.read (Memory.insert m a b) x = if x = a then b else Memory.read m x := by
  induction m with
  | nil => simp [Memory.insert, Memory.read, eq_comm]
  | cons c m ih =>
    obtain ⟨k, d⟩ := c
    by_cases h1 : a < k
    · simp [Memory.insert, h1, Memory.read, eq_comm]
    · by_cases h2 : k = a
      · subst h2
        by_cases hx : x = k
        · simp [Memory.insert, Memory.read, hx]
        · simp [Memory.insert, Memory.read, hx, Ne.symm hx]
      · by_cases hx : k = x
        · subst hx; simp [Memory.insert, h1, h2, Memory.read]
        · simp [Memory.insert, h1, h2, Memory.read, hx, ih]

/-- A write is seen at its address and nowhere else. -/
theorem Memory.read_write (m : Memory) (a x : Nat) (b : Byte) :
    Memory.read (Memory.write m a b) x = if x = a then b else Memory.read m x := by
  unfold Memory.write
  split
  · subst b; exact Memory.read_erase m a x
  · exact Memory.read_insert m a x b

/-- A write of several bytes is seen at its addresses and nowhere else. -/
theorem Memory.read_writeList (m : Memory) (a x : Nat) (bs : List Byte) :
    Memory.read (Memory.writeList m a bs) x =
      if a ≤ x ∧ x < a + bs.length then bs.getD (x - a) 0 else Memory.read m x := by
  induction bs generalizing m a with
  | nil =>
    have : ¬(a ≤ x ∧ x < a) := by omega
    simp [Memory.writeList, this]
  | cons b bs ih =>
    rw [Memory.writeList, ih, Memory.read_write]
    by_cases hx : x = a
    · subst hx; simp
    · by_cases h : a + 1 ≤ x ∧ x < a + 1 + bs.length
      · obtain ⟨k, rfl⟩ : ∃ k, x = a + (k + 1) := ⟨x - (a + 1), by omega⟩
        have h1 : a + (k + 1) - (a + 1) = k := by omega
        have h2 : a + (k + 1) - a = k + 1 := by omega
        have h3 : a ≤ a + (k + 1) ∧ a + (k + 1) < a + (b :: bs).length := by
          simp only [List.length_cons]; omega
        rw [if_pos h, if_pos h3, h1, h2]
        simp
      · have h3 : ¬(a ≤ x ∧ x < a + (b :: bs).length) := by
          simp only [List.length_cons]; omega
        rw [if_neg h, if_neg h3, if_neg hx]

/-- The bytes of a read run, one by one. -/
theorem Memory.readList_getD (m : Memory) (a n k : Nat) (h : k < n) :
    (Memory.readList m a n).getD k 0 = Memory.read m (a + k) := by
  simp [Memory.readList, List.getD_eq_getElem?_getD, h]

@[simp] theorem Memory.readList_length (m : Memory) (a n : Nat) : (Memory.readList m a n).length = n := by
  simp [Memory.readList]

/-! ### The canonical form -/

theorem Memory.wf_nil : Memory.wf [] := by decide

theorem Memory.wf_cons {c : Host.Cell} {m : Memory} :
    Memory.wf (c :: m) ↔
      (∀ d ∈ m, c.1 < d.1) ∧ (c.1 < Config.memSize ∧ c.2 ≠ Config.unlistedByte) ∧ Memory.wf m := by
  simp only [Memory.wf, List.pairwise_cons, List.forall_mem_cons]
  tauto

theorem Memory.erase_wf {m : Memory} (h : m.wf) (a : Nat) : (Memory.erase m a).wf :=
  ⟨h.1.filter _, fun c hc => h.2 c (List.mem_of_mem_filter hc)⟩

theorem Memory.mem_insert {m : Memory} {a : Nat} {b : Byte} {c : Host.Cell}
    (h : c ∈ Memory.insert m a b) : c = (a, b) ∨ c ∈ m := by
  induction m with
  | nil => simpa [Memory.insert] using h
  | cons d m ih =>
    obtain ⟨k, e⟩ := d
    simp only [Memory.insert] at h
    split at h
    · simpa using h
    · split at h
      · rcases List.mem_cons.mp h with h | h
        · exact .inl h
        · exact .inr (List.mem_cons_of_mem _ h)
      · rcases List.mem_cons.mp h with h | h
        · exact .inr (h ▸ List.mem_cons_self)
        · exact (ih h).imp_right (List.mem_cons_of_mem _)

theorem Memory.insert_wf {m : Memory} (h : m.wf) {a : Nat} {b : Byte} (ha : a < Config.memSize)
    (hb : b ≠ Config.unlistedByte) : (Memory.insert m a b).wf := by
  induction m with
  | nil => exact Memory.wf_cons.mpr ⟨by simp, ⟨ha, hb⟩, h⟩
  | cons d m ih =>
    obtain ⟨k, e⟩ := d
    obtain ⟨hlt, hd, hm⟩ := Memory.wf_cons.mp h
    simp only [Memory.insert]
    split
    · rename_i hak
      refine Memory.wf_cons.mpr ⟨?_, ⟨ha, hb⟩, h⟩
      simp only [List.forall_mem_cons]
      exact ⟨hak, fun d hd => Nat.lt_trans hak (hlt d hd)⟩
    · split
      · rename_i hka
        subst hka
        exact Memory.wf_cons.mpr ⟨hlt, ⟨ha, hb⟩, hm⟩
      · rename_i h1 h2
        refine Memory.wf_cons.mpr ⟨fun c hc => ?_, hd, ih hm⟩
        rcases Memory.mem_insert hc with rfl | hc
        · show k < a
          omega
        · exact hlt c hc

/-- A write to an address of the memory keeps the canonical form. -/
theorem Memory.write_wf {m : Memory} (h : m.wf) {a : Nat} (ha : a < Config.memSize) (b : Byte) :
    (Memory.write m a b).wf := by
  unfold Memory.write
  split
  · exact Memory.erase_wf h a
  · exact Memory.insert_wf h ha ‹_›

/-- A write of several bytes to addresses of the memory keeps the canonical form. -/
theorem Memory.writeList_wf {m : Memory} (h : m.wf) {a : Nat} {bs : List Byte}
    (ha : bs = [] ∨ a + bs.length ≤ Config.memSize) : (Memory.writeList m a bs).wf := by
  induction bs generalizing m a with
  | nil => exact h
  | cons b bs ih =>
    have hlen : a + (bs.length + 1) ≤ Config.memSize := by simpa using ha
    exact ih (Memory.write_wf h (by omega) b) (.inr (by omega))

/-- Below the first listed address nothing is listed. -/
theorem Memory.read_of_lt {m : Memory} {a : Nat} (h : ∀ c ∈ m, a < c.1) :
    Memory.read m a = Config.unlistedByte := by
  induction m with
  | nil => rfl
  | cons c m ih =>
    obtain ⟨k, b⟩ := c
    obtain ⟨hk, hm⟩ := List.forall_mem_cons.mp h
    have : k ≠ a := Nat.ne_of_gt hk
    simp [Memory.read, this, ih hm]

end Sys2Proof.Machine
end

