-- ==== Sys2Proof/Laws/Operands.lean ====
section
/-!
SUPPORT. The laws of the operand forms and of the flags: the range check as an inequality, the run of registers byte
by byte, and each flag as a comparison of numbers.
-/

namespace Sys2Proof.Machine

/-! ### The addressing mode (20_memory R64) -/

/-- What the range check checks: nothing for no bytes, else that the last address is in memory. -/
theorem State.dataInRange_iff (s : State) (count : Nat) :
    s.dataInRange count = true ↔ count = 0 ∨ s.i.toNat + count - 1 ≤ 4095 := by
  unfold State.dataInRange
  rw [Bool.or_eq_true, decide_eq_true_eq, decide_eq_true_eq]
  simp only [Config.memSize, State.dataAddr]
  omega

/-! ### Runs of registers (45_memory_transfer R192) -/

@[simp] theorem State.regsTo_length (s : State) (x : Nibble) : (s.regsTo x).length = x.toNat + 1 := by
  simp [State.regsTo]

theorem State.regsTo_getD (s : State) (x k : Nibble) (h : k.toNat ≤ x.toNat) :
    (s.regsTo x).getD k.toNat 0 = s.getV k := by
  have hk : k.toNat < x.toNat + 1 := by omega
  simp [State.regsTo, List.getD_eq_getElem?_getD, hk]

/-! ### Flags (42_alu) -/

theorem flagByte_eq (f : Bool) : flagByte f = 0 ∨ flagByte f = 1 := by
  cases f
  · exact .inl rfl
  · exact .inr rfl

theorem carryOut_iff (a b : Byte) : carryOut a b = true ↔ a.toNat + b.toNat > 255 := by
  simp [carryOut]

theorem noBorrow_iff (minuend subtrahend : Byte) :
    noBorrow minuend subtrahend = true ↔ minuend.toNat ≥ subtrahend.toNat := by
  simp [noBorrow]

/-- The bit a right shift loses is the remainder by 2. -/
theorem flagByte_lowBit (a : Byte) : (flagByte (lowBit a)).toNat = a.toNat % 2 := by
  revert a
  decide

/-- The bit a left shift loses is the quotient by 128. -/
theorem flagByte_highBit (a : Byte) : (flagByte (highBit a)).toNat = a.toNat / 128 := by
  revert a
  decide

end Sys2Proof.Machine
end

