-- ==== Sys2Proof/Laws/PerInstr.lean ====
section
/-!
SUPPORT. Statements about every instruction as syntax, one lemma per constructor.
-/

namespace Sys2Proof.Laws

/-- An instruction's word lies in the instruction's own row of the opcode map, and that row is one of the 33
(30_encoding R94, R96): so its word is a well-formed word. -/
def EncodesInRow.Statement (i : Instr) : Prop :=
  i.row ∈ opcodeTable ∧ i.row.admits (encode i) = true

/-- A word is admitted by a row when each of its 16 bits under the mask is the row's. -/
theorem admits_of_bits {r : Row} {w : Word}
    (h : ∀ k < 16, (w.getLsbD k && r.mask.getLsbD k) = r.bits.getLsbD k) : r.admits w = true := by
  simp only [Row.admits, beq_iff_eq]
  exact BitVec.eq_of_getLsbD_eq fun k hk => by simpa using h k hk

/-! ### The formats: which words each row admits (R91) -/

theorem admits_NNN (op : Nibble) (nnn : Addr) : (Row.mk 0xF000 (packNNN op 0)).admits (packNNN op nnn) = true :=
  admits_of_bits fun k hk => by
    interval_cases k <;> simp [-BitVec.getLsbD_eq_getElem, getLsbD_packNNN]

theorem admits_XNN (op x : Nibble) (nn : Byte) : (Row.mk 0xF000 (packXNN op 0 0)).admits (packXNN op x nn) = true :=
  admits_of_bits fun k hk => by
    interval_cases k <;> simp [-BitVec.getLsbD_eq_getElem, getLsbD_packXNN]

theorem admits_X (op x : Nibble) (sub : Byte) : (Row.mk 0xF0FF (packXNN op 0 sub)).admits (packXNN op x sub) = true :=
  admits_of_bits fun k hk => by
    interval_cases k <;> simp [-BitVec.getLsbD_eq_getElem, getLsbD_packXNN]

theorem admits_XY (op x y sub : Nibble) : (Row.mk 0xF00F (packXYN op 0 0 sub)).admits (packXYN op x y sub) = true :=
  admits_of_bits fun k hk => by
    interval_cases k <;> simp [-BitVec.getLsbD_eq_getElem, getLsbD_packXYN]

theorem admits_XYN (op x y n : Nibble) : (Row.mk 0xF000 (packXYN op 0 0 0)).admits (packXYN op x y n) = true :=
  admits_of_bits fun k hk => by
    interval_cases k <;> simp [-BitVec.getLsbD_eq_getElem, getLsbD_packXYN]

/-! ### The instructions -/

theorem EncodesInRow.cls : EncodesInRow.Statement .cls :=
  ⟨by simp only [Instr.row]; decide, by decide⟩

theorem EncodesInRow.ret : EncodesInRow.Statement .ret :=
  ⟨by simp only [Instr.row]; decide, by decide⟩

theorem EncodesInRow.jp (nnn : Addr) : EncodesInRow.Statement (.jp nnn) :=
  ⟨by simp only [Instr.row]; decide, admits_NNN 0x1 nnn⟩

theorem EncodesInRow.call (nnn : Addr) : EncodesInRow.Statement (.call nnn) :=
  ⟨by simp only [Instr.row]; decide, admits_NNN 0x2 nnn⟩

theorem EncodesInRow.seImm (x : Nibble) (nn : Byte) : EncodesInRow.Statement (.seImm x nn) :=
  ⟨by simp only [Instr.row]; decide, admits_XNN 0x3 x nn⟩

theorem EncodesInRow.sneImm (x : Nibble) (nn : Byte) : EncodesInRow.Statement (.sneImm x nn) :=
  ⟨by simp only [Instr.row]; decide, admits_XNN 0x4 x nn⟩

theorem EncodesInRow.seReg (x y : Nibble) : EncodesInRow.Statement (.seReg x y) :=
  ⟨by simp only [Instr.row]; decide, admits_XY 0x5 x y 0x0⟩

theorem EncodesInRow.ldImm (x : Nibble) (nn : Byte) : EncodesInRow.Statement (.ldImm x nn) :=
  ⟨by simp only [Instr.row]; decide, admits_XNN 0x6 x nn⟩

theorem EncodesInRow.addImm (x : Nibble) (nn : Byte) : EncodesInRow.Statement (.addImm x nn) :=
  ⟨by simp only [Instr.row]; decide, admits_XNN 0x7 x nn⟩

theorem EncodesInRow.ldReg (x y : Nibble) : EncodesInRow.Statement (.ldReg x y) :=
  ⟨by simp only [Instr.row]; decide, admits_XY 0x8 x y 0x0⟩

theorem EncodesInRow.orReg (x y : Nibble) : EncodesInRow.Statement (.orReg x y) :=
  ⟨by simp only [Instr.row]; decide, admits_XY 0x8 x y 0x1⟩

theorem EncodesInRow.andReg (x y : Nibble) : EncodesInRow.Statement (.andReg x y) :=
  ⟨by simp only [Instr.row]; decide, admits_XY 0x8 x y 0x2⟩

theorem EncodesInRow.xorReg (x y : Nibble) : EncodesInRow.Statement (.xorReg x y) :=
  ⟨by simp only [Instr.row]; decide, admits_XY 0x8 x y 0x3⟩

theorem EncodesInRow.addReg (x y : Nibble) : EncodesInRow.Statement (.addReg x y) :=
  ⟨by simp only [Instr.row]; decide, admits_XY 0x8 x y 0x4⟩

theorem EncodesInRow.subReg (x y : Nibble) : EncodesInRow.Statement (.subReg x y) :=
  ⟨by simp only [Instr.row]; decide, admits_XY 0x8 x y 0x5⟩

theorem EncodesInRow.shr (x y : Nibble) : EncodesInRow.Statement (.shr x y) :=
  ⟨by simp only [Instr.row]; decide, admits_XY 0x8 x y 0x6⟩

theorem EncodesInRow.subnReg (x y : Nibble) : EncodesInRow.Statement (.subnReg x y) :=
  ⟨by simp only [Instr.row]; decide, admits_XY 0x8 x y 0x7⟩

theorem EncodesInRow.shl (x y : Nibble) : EncodesInRow.Statement (.shl x y) :=
  ⟨by simp only [Instr.row]; decide, admits_XY 0x8 x y 0xE⟩

theorem EncodesInRow.sneReg (x y : Nibble) : EncodesInRow.Statement (.sneReg x y) :=
  ⟨by simp only [Instr.row]; decide, admits_XY 0x9 x y 0x0⟩

theorem EncodesInRow.ldI (nnn : Addr) : EncodesInRow.Statement (.ldI nnn) :=
  ⟨by simp only [Instr.row]; decide, admits_NNN 0xA nnn⟩

theorem EncodesInRow.jpV0 (nnn : Addr) : EncodesInRow.Statement (.jpV0 nnn) :=
  ⟨by simp only [Instr.row]; decide, admits_NNN 0xB nnn⟩

theorem EncodesInRow.rnd (x : Nibble) (nn : Byte) : EncodesInRow.Statement (.rnd x nn) :=
  ⟨by simp only [Instr.row]; decide, admits_XNN 0xC x nn⟩

theorem EncodesInRow.drw (x y n : Nibble) : EncodesInRow.Statement (.drw x y n) :=
  ⟨by simp only [Instr.row]; decide, admits_XYN 0xD x y n⟩

theorem EncodesInRow.skp (x : Nibble) : EncodesInRow.Statement (.skp x) :=
  ⟨by simp only [Instr.row]; decide, admits_X 0xE x 0x9E⟩

theorem EncodesInRow.sknp (x : Nibble) : EncodesInRow.Statement (.sknp x) :=
  ⟨by simp only [Instr.row]; decide, admits_X 0xE x 0xA1⟩

theorem EncodesInRow.ldFromDT (x : Nibble) : EncodesInRow.Statement (.ldFromDT x) :=
  ⟨by simp only [Instr.row]; decide, admits_X 0xF x 0x07⟩

theorem EncodesInRow.ldKey (x : Nibble) : EncodesInRow.Statement (.ldKey x) :=
  ⟨by simp only [Instr.row]; decide, admits_X 0xF x 0x0A⟩

theorem EncodesInRow.ldDT (x : Nibble) : EncodesInRow.Statement (.ldDT x) :=
  ⟨by simp only [Instr.row]; decide, admits_X 0xF x 0x15⟩

theorem EncodesInRow.ldST (x : Nibble) : EncodesInRow.Statement (.ldST x) :=
  ⟨by simp only [Instr.row]; decide, admits_X 0xF x 0x18⟩

theorem EncodesInRow.addI (x : Nibble) : EncodesInRow.Statement (.addI x) :=
  ⟨by simp only [Instr.row]; decide, admits_X 0xF x 0x1E⟩

theorem EncodesInRow.ldB (x : Nibble) : EncodesInRow.Statement (.ldB x) :=
  ⟨by simp only [Instr.row]; decide, admits_X 0xF x 0x33⟩

theorem EncodesInRow.storeRegs (x : Nibble) : EncodesInRow.Statement (.storeRegs x) :=
  ⟨by simp only [Instr.row]; decide, admits_X 0xF x 0x55⟩

theorem EncodesInRow.loadRegs (x : Nibble) : EncodesInRow.Statement (.loadRegs x) :=
  ⟨by simp only [Instr.row]; decide, admits_X 0xF x 0x65⟩

/-- The words of all instructions are well formed. -/
theorem wordWellFormed_of_row {i : Instr} (h : EncodesInRow.Statement i) : wordWellFormed (encode i) = true :=
  List.any_eq_true.mpr ⟨i.row, h⟩

end Sys2Proof.Laws
end

