-- ==== Sys2Proof/Tests/Slice0.lean ====
section
/-!
SUPPORT. The model's own tests: ill-formed words and programs, the decoding of every instruction, one or two single
steps per instruction, the events, and for every statement of Certificates/Slice0 with hypotheses a state that meets
them. Expected values are those of 95_test_vectors (the vector's name stands before each test) or worked by hand from
the rule named there.
-/

namespace Sys2Proof.Tests

open Sys2Proof.Machine

/-! ### Helpers -/

/-- The post-Reset state with some registers set. -/
def regs (vs : List (Nibble × Byte)) : State := vs.foldl (fun s p => s.setV p.1 p.2) State.reset

/-- `s` with some pixels ON. -/
def lit (s : State) (ps : List (Fin 32 × Fin 64)) : State :=
  { s with fb := ps.foldl (fun fb p => fb.setPixel p.1 p.2 true) s.fb }

/-- `s` with a schedule. -/
def sched (s : State) (es : List Event) : State := { s with host := { s.host with pending := es } }

/-- The state an outcome answers; no outcome of this machine is a fault, and no test meets a refusal. -/
def after : Result → State
  | .next t => t
  | .fault _ => State.reset
  | .refused _ => State.reset

/-- One READY cycle on the word `w` placed at `PC`, with the samples the state holds. -/
def ran (s : State) (w : Nat) : State := after (step (s.withFetchWord 16 w))

/-- One event. -/
def event (s : State) (e : Event) : State := after (step (sched s [e]))

/-! ### Ill-formed words and programs -/

-- K1
theorem test_0000_is_no_instruction : wordWellFormed 0x0000 = false ∧ decodeWord 0x0000 = none := by decide

-- K2
theorem test_0123_is_no_instruction : wordWellFormed 0x0123 = false ∧ decodeWord 0x0123 = none := by decide

-- K3
theorem test_00e1_is_no_instruction : wordWellFormed 0x00E1 = false ∧ decodeWord 0x00E1 = none := by decide

-- K5
theorem test_5121_is_no_instruction : wordWellFormed 0x5121 = false ∧ decodeWord 0x5121 = none := by decide

-- K6
theorem test_8128_is_no_instruction : wordWellFormed 0x8128 = false ∧ decodeWord 0x8128 = none := by decide

-- K7
theorem test_812f_is_no_instruction : wordWellFormed 0x812F = false ∧ decodeWord 0x812F = none := by decide

-- K8
theorem test_9121_is_no_instruction : wordWellFormed 0x9121 = false ∧ decodeWord 0x9121 = none := by decide

-- K10
theorem test_e19f_is_no_instruction : wordWellFormed 0xE19F = false ∧ decodeWord 0xE19F = none := by decide

-- K11
theorem test_f029_is_no_instruction : wordWellFormed 0xF029 = false ∧ decodeWord 0xF029 = none := by decide

-- K13
theorem test_ffff_is_no_instruction : wordWellFormed 0xFFFF = false ∧ decodeWord 0xFFFF = none := by decide

-- E8
theorem test_3585_bytes_are_no_program :
    programWellFormed (List.replicate 3585 0xAA) = false := by
  rw [programWellFormed, List.length_replicate]
  decide

-- E9
theorem test_3584_bytes_are_a_program :
    programWellFormed (List.replicate 3584 0xAA) = true := by
  rw [programWellFormed, List.length_replicate]
  decide

-- R90: every instruction is two bytes
theorem test_one_byte_is_truncated : decodeBytes [0x12] = .truncated := by decide

/-! ### Decoding: a word of every row, bit by bit from its pattern (30_encoding R96) -/

-- 00E0
theorem test_decode_cls : decodeWord 0b0000000011100000#16 = some .cls := by decide

-- 00EE, 1nnn, 2nnn, Bnnn
theorem test_decode_control_transfer :
    decodeWord 0b0000000011101110#16 = some .ret ∧
    decodeWord 0b0001101010111100#16 = some (.jp 0xABC) ∧
    decodeWord 0b0010001101000101#16 = some (.call 0x345) ∧
    decodeWord 0b1011000100100011#16 = some (.jpV0 0x123) := by decide

-- 3xnn, 4xnn, 5xy0, 9xy0
theorem test_decode_skips :
    decodeWord 0b0011001100010000#16 = some (.seImm 3 0x10) ∧
    decodeWord 0b0100101001011011#16 = some (.sneImm 10 0x5B) ∧
    decodeWord 0b0101000100100000#16 = some (.seReg 1 2) ∧
    decodeWord 0b1001100001110000#16 = some (.sneReg 8 7) := by decide

-- 6xnn, 7xnn, Annn, Cxnn
theorem test_decode_immediates :
    decodeWord 0b0110101001010101#16 = some (.ldImm 10 0x55) ∧
    decodeWord 0b0111110011111110#16 = some (.addImm 12 0xFE) ∧
    decodeWord 0b1010111111111111#16 = some (.ldI 0xFFF) ∧
    decodeWord 0b1100001100001111#16 = some (.rnd 3 0x0F) := by decide

-- 8xy0, 8xy1, 8xy2, 8xy3, 8xy4
theorem test_decode_registers :
    decodeWord 0b1000000100100000#16 = some (.ldReg 1 2) ∧
    decodeWord 0b1000001101000001#16 = some (.orReg 3 4) ∧
    decodeWord 0b1000010101100010#16 = some (.andReg 5 6) ∧
    decodeWord 0b1000011110000011#16 = some (.xorReg 7 8) ∧
    decodeWord 0b1000100110100100#16 = some (.addReg 9 10) := by decide

-- 8xy5, 8xy6, 8xy7, 8xyE
theorem test_decode_registers_high :
    decodeWord 0b1000101111000101#16 = some (.subReg 11 12) ∧
    decodeWord 0b1000110111100110#16 = some (.shr 13 14) ∧
    decodeWord 0b1000111100000111#16 = some (.subnReg 15 0) ∧
    decodeWord 0b1000000100101110#16 = some (.shl 1 2) := by decide

-- Dxyn
theorem test_decode_drw : decodeWord 0b1101000100101111#16 = some (.drw 1 2 15) := by decide

-- Ex9E, ExA1, Fx07, Fx0A, Fx15, Fx18
theorem test_decode_keypad_timers :
    decodeWord 0b1110001110011110#16 = some (.skp 3) ∧
    decodeWord 0b1110010010100001#16 = some (.sknp 4) ∧
    decodeWord 0b1111000100000111#16 = some (.ldFromDT 1) ∧
    decodeWord 0b1111001100001010#16 = some (.ldKey 3) ∧
    decodeWord 0b1111001000010101#16 = some (.ldDT 2) ∧
    decodeWord 0b1111010000011000#16 = some (.ldST 4) := by decide

-- Fx1E, Fx33, Fx55, Fx65
theorem test_decode_memory_transfer :
    decodeWord 0b1111001000011110#16 = some (.addI 2) ∧
    decodeWord 0b1111000000110011#16 = some (.ldB 0) ∧
    decodeWord 0b1111111001010101#16 = some (.storeRegs 14) ∧
    decodeWord 0b1111011101100101#16 = some (.loadRegs 7) := by decide

-- R66: the byte at the lower address is the high one
theorem test_decode_bytes_big_endian : decodeBytes [0x81, 0x24, 0x00] = .known (.addReg 1 2) [0x00] := by decide

-- 8xy5
theorem test_encode_sub : encode (.subReg 1 2) = 0x8125 := by decide

/-! ### Single steps -/

-- G1
theorem test_cls :
    let t := ran (lit (regs [(15, 0x01)]) [(0, 0), (31, 63), (10, 20)]) 0x00E0
    (t.pc, t.fb.pixel 0 0, t.fb.pixel 31 63, t.fb.pixel 10 20, t.getV 15) = (0x202, false, false, false, 0x01) := by decide

-- T8
theorem test_ret :
    let t := ran { State.reset with pc := 0x300, sp := 1, stk := State.reset.stk.set 0 0x202 } 0x00EE
    (t.pc, t.sp, t.run) = (0x202, 0, .ready) := by decide

-- T9
theorem test_ret_underflow :
    let t := ran { State.reset with pc := 0x300, stk := State.reset.stk.set 0 0x202 } 0x00EE
    (t.pc, t.sp, t.run, t.diag) = (0x300, 0, .halted, .stackUnderflow) := by decide

-- T1
theorem test_jp :
    let t := ran State.reset 0x1ABC
    t.pc = 0xABC := by decide

-- T5
theorem test_call_last_entry :
    let t := ran { State.reset with sp := 15 } 0x2300
    (t.pc, t.sp, t.stk[15]) = (0x300, 16, 0x202) := by decide

-- T6
theorem test_call_overflow :
    let t := ran { State.reset with sp := 16 } 0x2300
    (t.pc, t.sp, t.run, t.diag) = (0x200, 16, .halted, .stackOverflow) := by decide

-- T10
theorem test_se_imm_skips :
    let t := ran (regs [(3, 0x10)]) 0x3310
    t.pc = 0x204 := by decide

-- T11
theorem test_se_imm_goes_on :
    let t := ran (regs [(3, 0x11)]) 0x3310
    t.pc = 0x202 := by decide

-- T12
theorem test_sne_imm_goes_on :
    let t := ran (regs [(3, 0x10)]) 0x4310
    t.pc = 0x202 := by decide

-- T13
theorem test_sne_imm_skips :
    let t := ran (regs [(3, 0x11)]) 0x4310
    t.pc = 0x204 := by decide

-- T14
theorem test_se_reg_skips :
    let t := ran (regs [(1, 0x07), (2, 0x07)]) 0x5120
    t.pc = 0x204 := by decide

-- T15
theorem test_se_reg_goes_on :
    let t := ran (regs [(1, 0x07), (2, 0x08)]) 0x5120
    t.pc = 0x202 := by decide

-- T17
theorem test_sne_reg_skips :
    let t := ran (regs [(1, 0x07), (2, 0x08)]) 0x9120
    t.pc = 0x204 := by decide

-- T18
theorem test_sne_reg_goes_on :
    let t := ran (regs [(1, 0x07), (2, 0x07)]) 0x9120
    t.pc = 0x202 := by decide

-- T21
theorem test_jp_v0_uses_v0 :
    let t := ran (regs [(0, 0x02), (1, 0x50)]) 0xB123
    t.pc = 0x125 := by decide

-- T22
theorem test_jp_v0_is_not_masked :
    let t := ran (regs [(0, 0xFF)]) 0xBFFF
    (t.pc, t.run) = (0x10FE, .ready) := by decide

-- A1
theorem test_ld_imm :
    let t := ran State.reset 0x6F7B
    (t.getV 15, t.pc) = (0x7B, 0x202) := by decide

-- A2
theorem test_add_imm_writes_no_flag :
    let t := ran (regs [(1, 0xFF), (15, 0x05)]) 0x7101
    (t.getV 1, t.getV 15) = (0x00, 0x05) := by decide

-- A5
theorem test_ld_reg :
    let t := ran (regs [(2, 0x55)]) 0x8120
    (t.getV 1, t.getV 2) = (0x55, 0x55) := by decide

-- A6
theorem test_or :
    let t := ran (regs [(1, 0xF0), (2, 0x0F), (15, 0x05)]) 0x8121
    (t.getV 1, t.getV 15) = (0xFF, 0x05) := by decide

-- A7
theorem test_and :
    let t := ran (regs [(1, 0xF0), (2, 0x3C), (15, 0x05)]) 0x8122
    (t.getV 1, t.getV 15) = (0x30, 0x05) := by decide

-- A8
theorem test_xor :
    let t := ran (regs [(1, 0xF0), (2, 0x3C), (15, 0x05)]) 0x8123
    (t.getV 1, t.getV 15) = (0xCC, 0x05) := by decide

-- A10
theorem test_add_carries :
    let t := ran (regs [(1, 0xFF), (2, 0x01)]) 0x8124
    (t.getV 1, t.getV 15) = (0x00, 0x01) := by decide

-- A13
theorem test_add_to_vf_keeps_the_flag :
    let t := ran (regs [(15, 0x02), (1, 0x03)]) 0x8F14
    t.getV 15 = 0x00 := by decide

-- A17
theorem test_sub_borrows :
    let t := ran (regs [(1, 0x00), (2, 0x01), (15, 0x01)]) 0x8125
    (t.getV 1, t.getV 15) = (0xFF, 0x00) := by decide

-- A16
theorem test_sub_equal_is_no_borrow :
    let t := ran (regs [(1, 0x05), (2, 0x05)]) 0x8125
    (t.getV 1, t.getV 15) = (0x00, 0x01) := by decide

-- A21
theorem test_subn :
    let t := ran (regs [(1, 0x05), (2, 0x07)]) 0x8127
    (t.getV 1, t.getV 15) = (0x02, 0x01) := by decide

-- A22
theorem test_subn_borrows :
    let t := ran (regs [(1, 0x07), (2, 0x05), (15, 0x01)]) 0x8127
    (t.getV 1, t.getV 15) = (0xFE, 0x00) := by decide

-- A25
theorem test_shr_ignores_y :
    let t := ran (regs [(1, 0x04), (2, 0xFF), (15, 0x01)]) 0x8126
    (t.getV 1, t.getV 2, t.getV 15) = (0x02, 0xFF, 0x00) := by decide

-- A27
theorem test_shr_of_vf_keeps_the_flag :
    let t := ran (regs [(15, 0x02)]) 0x8F06
    t.getV 15 = 0x00 := by decide

-- A30
theorem test_shl_ignores_y :
    let t := ran (regs [(1, 0x01), (2, 0x80)]) 0x812E
    (t.getV 1, t.getV 2, t.getV 15) = (0x02, 0x80, 0x00) := by decide

-- A31
theorem test_shl_of_vf_keeps_the_flag :
    let t := ran (regs [(15, 0x80)]) 0x8F0E
    t.getV 15 = 0x01 := by decide

-- A32
theorem test_ld_i :
    let t := ran State.reset 0xAFFF
    (t.i, t.pc) = (0xFFF, 0x202) := by decide

-- A34
theorem test_add_i_passes_4095 :
    let t := ran { regs [(2, 0x01)] with i := 0xFFF } 0xF21E
    (t.i, t.getV 15) = (0x1000, 0x00) := by decide

-- A35
theorem test_add_i_wraps :
    let t := ran { regs [(2, 0x02)] with i := 0xFFFF } 0xF21E
    (t.i, t.getV 15) = (0x0001, 0x00) := by decide

-- A36
theorem test_rnd :
    let t := ran (State.reset.sample 0 0xA7) 0xC30F
    (t.getV 3, t.pc) = (0x07, 0x202) := by decide

-- G6
theorem test_drw_wraps :
    let t := ran { regs [(0, 0x3E), (1, 0x1F)] with i := 0x300, mem := [(0x300, 0xC0), (0x301, 0x81)] } 0xD012
    (t.fb.pixel 0 5, t.fb.pixel 0 62, t.fb.pixel 31 62, t.fb.pixel 31 63, t.fb.pixel 0 63, t.getV 15) = (true, true, true, true, false, 0x00) := by decide

-- G9
theorem test_drw_collides :
    let t := ran (lit { State.reset with i := 0x300, mem := [(0x300, 0xF0)] } [(0, 3), (0, 4)]) 0xD011
    (t.fb.pixel 0 0, t.fb.pixel 0 3, t.fb.pixel 0 4, t.getV 15) = (true, false, true, 0x01) := by decide

-- Y3
theorem test_skp_uses_the_low_four_bits :
    let t := ran ((regs [(1, 0x1A)]).sample 0x0400 0) 0xE19E
    t.pc = 0x204 := by decide

-- Y2
theorem test_skp_goes_on :
    let t := ran ((regs [(3, 0x07)]).sample 0xFF7F 0) 0xE39E
    t.pc = 0x202 := by decide

-- Y6
theorem test_sknp_goes_on :
    let t := ran ((regs [(3, 0xFF)]).sample 0x8000 0) 0xE3A1
    t.pc = 0x202 := by decide

-- Y5
theorem test_sknp_skips :
    let t := ran (regs [(3, 0x07)]) 0xE3A1
    t.pc = 0x204 := by decide

-- Y13
theorem test_ld_from_dt :
    let t := ran { State.reset with dt := 0x2A } 0xF107
    (t.getV 1, t.dt) = (0x2A, 0x2A) := by decide

-- Y8
theorem test_ld_key_waits :
    let t := ran ((regs [(3, 0xEE)]).sample 0x0002 0) 0xF30A
    (t.pc, t.run, t.wreg, t.kprev, t.getV 3) = (0x202, .waitingForKey, 3, 0x0002, 0xEE) := by decide

-- Y15
theorem test_ld_dt :
    let t := ran { State.reset with dt := 0x09 } 0xF115
    t.dt = 0x00 := by decide

-- Y16
theorem test_ld_st :
    let t := ran (regs [(1, 0x02)]) 0xF118
    (t.st, t.snd) = (0x02, true) := by decide

-- M6
theorem test_ld_b_last_address :
    let t := ran { regs [(0, 0x7B)] with i := 0xFFD } 0xF033
    (t.mem, t.i) = ([(0x200, 0xF0), (0x201, 0x33), (0xFFD, 0x01), (0xFFE, 0x02), (0xFFF, 0x03)], 0xFFD) := by decide

-- M7
theorem test_ld_b_out_of_range :
    let t := ran { regs [(0, 0x7B)] with i := 0xFFE } 0xF033
    (t.mem, t.pc, t.run, t.diag) = ([(0x200, 0xF0), (0x201, 0x33)], 0x200, .halted, .outOfBoundsAccess) := by decide

-- M8
theorem test_store_regs :
    let t := ran { regs [(0, 0x11), (1, 0x22), (2, 0x33), (3, 0x44)] with i := 0x400 } 0xF255
    (t.mem, t.i) = ([(0x200, 0xF2), (0x201, 0x55), (0x400, 0x11), (0x401, 0x22), (0x402, 0x33)], 0x400) := by decide

-- M10
theorem test_store_regs_out_of_range :
    let t := ran { regs [(0, 0x11), (1, 0x22)] with i := 0xFFF } 0xF155
    (t.mem, t.run, t.diag) = ([(0x200, 0xF1), (0x201, 0x55)], .halted, .outOfBoundsAccess) := by decide

-- M13
theorem test_load_regs :
    let t := ran { regs [(3, 0x77)] with
      i := 0x300, mem := [(0x300, 0x02), (0x301, 0x03), (0x302, 0x04), (0x303, 0x05)] } 0xF265
    (t.getV 0, t.getV 1, t.getV 2, t.getV 3, t.i) = (0x02, 0x03, 0x04, 0x77, 0x300) := by decide

-- M15
theorem test_load_regs_out_of_range :
    let t := ran { regs [(0, 0x01), (1, 0x02)] with i := 0xFFF, mem := [(0xFFF, 0x5A)] } 0xF165
    (t.getV 0, t.getV 1, t.run, t.diag) = (0x01, 0x02, .halted, .outOfBoundsAccess) := by decide

/-! ### Fetch, unknown words, waiting cycles, the other events -/

-- K11
theorem test_unknown_word_is_skipped :
    let t := ran State.reset 0xF029
    (t.pc, t.diag, t.run) = (0x202, .unknownInstruction, .ready) := by decide

-- T26
theorem test_odd_pc_is_legal :
    let t := ran { State.reset with pc := 0x201 } 0x6A55
    (t.getV 10, t.pc) = (0x55, 0x203) := by decide

-- T24
theorem test_fetch_at_4095_halts :
    let t := event { State.reset with pc := 0xFFF } (.cycle 0 0)
    (t.pc, t.run, t.diag) = (0xFFF, .halted, .outOfBoundsAccess) := by decide

-- Y8, second cycle
theorem test_held_key_ends_no_wait :
    let t := event { State.reset with run := .waitingForKey, pc := 0x202, wreg := 5, kprev := 0x0002 } (.cycle 0x0002 0)
    (t.run, t.diag, t.kprev, t.getV 5) = (.waitingForKey, .noProgress, 0x0002, 0x00) := by decide

-- Y9, second cycle, with WREG = 5
theorem test_least_new_key_ends_the_wait :
    let t := event { State.reset with run := .waitingForKey, pc := 0x202, wreg := 5, kprev := 0 } (.cycle 0x8010 0)
    (t.run, t.diag, t.kprev, t.getV 5, t.pc) = (.ready, .none, 0x8010, 0x04, 0x202) := by decide

-- Y10, second cycle
theorem test_new_key_beside_a_held_one :
    let t := event { State.reset with run := .waitingForKey, pc := 0x202, wreg := 5, kprev := 0x0002 } (.cycle 0x0202 0)
    (t.run, t.kprev, t.getV 5) = (.ready, 0x0202, 0x09) := by decide

-- E5
theorem test_tick_when_halted :
    let t := event { State.reset with run := .halted, diag := .stackUnderflow, dt := 2, st := 1 } .tick
    (t.dt, t.st, t.snd, t.run, t.diag) = (1, 0, false, .halted, .stackUnderflow) := by decide

-- E3
theorem test_tick_stops_at_zero :
    let t := event State.reset .tick
    (t.dt, t.st) = (0, 0) := by decide

-- E7
theorem test_cycle_when_halted :
    let t := event { State.reset with run := .halted, diag := .outOfBoundsAccess, pc := 0xFFF } (.cycle 0xFFFF 0xFF)
    (t.pc, t.run, t.diag, t.kprev) = (0xFFF, .halted, .outOfBoundsAccess, 0) := by decide

-- E11
theorem test_load :
    let t := event { State.reset with mem := [(0x200, 0x11), (0x201, 0x22), (0x202, 0x33), (0x203, 0x44)] } (.load [0xAA, 0xBB])
    (t.mem, t.host.loadResult) = ([(0x200, 0xAA), (0x201, 0xBB), (0x202, 0x33), (0x203, 0x44)], some .none) := by decide

-- E12
theorem test_load_keeps_the_run_state :
    let t := event { regs [(4, 0x09)] with run := .halted, diag := .stackOverflow, sp := 16 } (.load [0x12, 0x00])
    (t.mem, t.run, t.diag, t.sp, t.getV 4) = ([(0x200, 0x12)], .halted, .stackOverflow, 16, 0x09) := by decide

/-- The start state of E13. -/
def used : State :=
  lit { regs [(4, 0x09)] with
    run := .halted, diag := .stackOverflow, pc := 0x300, sp := 16, stk := Vector.replicate 16 0x202, i := 0xABC,
    dt := 0x10, st := 0x20, wreg := 7, kprev := 0x00F0, mem := [(0x200, 0x12)] } [(3, 3)]

-- E13
theorem test_reset_registers :
    let t := event used .reset
    (t.run, t.diag, t.pc, t.sp, t.getV 4, t.i, t.dt) = (.ready, .none, 0x200, 0, 0x00, 0, 0) := by decide

-- E13
theorem test_reset_the_rest :
    let t := event used .reset
    (t.st, t.wreg, t.kprev, t.fb.pixel 3 3) = (0, 0, 0, false) := by decide

-- E13
theorem test_reset_keeps_memory_and_stack :
    let t := event used .reset
    (t.mem, t.stk[15]) = ([(0x200, 0x12)], 0x202) := by decide

/-! ### Codes (10_state R38, R39, 20_memory R70) -/

theorem test_run_codes : [RunState.ready, .waitingForKey, .halted].map RunState.code = [0, 1, 2] := by decide

theorem test_diag_codes :
    [Report.none, .outOfBoundsAccess, .stackOverflow, .stackUnderflow, .unknownInstruction, .noProgress].map
      Report.code = [0, 1, 2, 3, 4, 6] := by decide

theorem test_load_codes : [LoadResult.none, .invalidProgramLength].map LoadResult.code = [0, 5] := by decide

/-! ### Witnesses: each statement with hypotheses has states that meet them -/

theorem witness_DecodedWordsEncodeToThemselves : decodeWord 0x8125 = some (.subReg 1 2) := by decide

theorem witness_DecoderAgreesWithTheOpcodeMap :
    decodeWord 0xF765 = some (.loadRegs 7) ∧ decodeWord 0xF766 = none := by decide

theorem witness_UnknownWordsAreTheListedOnes :
    decodeWord 0x0123 = none ∧ decodeWord 0x5121 = none ∧ decodeWord 0x8128 = none ∧
    decodeWord 0x812F = none ∧ decodeWord 0x9121 = none ∧ decodeWord 0xE19F = none ∧ decodeWord 0xF029 = none := by decide

theorem witness_OpcodeRowsAreDisjoint :
    Row.mk 0xF00F 0x8005 ∈ opcodeTable ∧ (Row.mk 0xF00F 0x8005).admits 0x8125 = true := by decide

/-- `RND V3, 0x0F` at 0x0200, and a Cycle event next. -/
def rndNext : State :=
  sched { State.reset with mem := [(0x200, 0xC3), (0x201, 0x0F)] } [.cycle 0x0080 0xA7]

theorem witness_StepRunsTheDecodedInstruction :
    rndNext.nextEvent = .cycle 0x0080 0xA7 ∧ rndNext.run = .ready ∧ rndNext.pc.toNat ≤ 4094 ∧
    decodeBytes [rndNext.mem.read rndNext.pc.toNat, rndNext.mem.read (rndNext.pc.toNat + 1)] =
      .known (.rnd 3 0x0F) [] := by decide

/-- A READY cycle next, with `LD VA, 0x55` at the last address a fetch may start at. -/
def cycleAt (pc : Word) : State :=
  sched { State.reset with pc := pc, mem := [(4094, 0x6A), (4095, 0x55)] } [.cycle 0 0]

theorem witness_ReadyCycleFetchesBigEndianOrHalts_at_4095 :
    (cycleAt 4095).nextEvent = .cycle 0 0 ∧ (cycleAt 4095).run = .ready ∧ 4094 < (cycleAt 4095).pc.toNat := by decide

theorem witness_ReadyCycleFetchesBigEndianOrHalts_at_4094 :
    let s := cycleAt 4094
    s.nextEvent = .cycle 0 0 ∧ s.run = .ready ∧ s.pc.toNat ≤ 4094 ∧
      (0x6A55#16).extractLsb' 8 8 = s.mem.read s.pc.toNat ∧
      (0x6A55#16).extractLsb' 0 8 = s.mem.read (s.pc.toNat + 1) ∧ decodeWord 0x6A55 = some (.ldImm 10 0x55) := by decide

theorem witness_ReadyCycleFetchesBigEndianOrHalts_unknown :
    let s := cycleAt 0x300
    s.nextEvent = .cycle 0 0 ∧ s.run = .ready ∧ s.pc.toNat ≤ 4094 ∧
      (0#16).extractLsb' 8 8 = s.mem.read s.pc.toNat ∧
      (0#16).extractLsb' 0 8 = s.mem.read (s.pc.toNat + 1) ∧ decodeWord 0 = none := by decide

theorem witness_PlacedInstructionIsRunNext :
    decodeTableWord 16 0xD01F = some (.drw 0 1 15) ∧ (cycleAt 4094).pc.toNat ≤ 4094 ∧
    ((cycleAt 4095).withFetchWord 16 0xD01F).pc = 512 := by decide

/-- A core that is halted, with the event `e` next. -/
def haltedNext (e : Event) : State := sched { State.reset with run := .halted, diag := .stackOverflow } [e]

/-- A core that waits for a key with an earlier sample `kprev`, and a Cycle event with `keys` next. -/
def waitNext (kprev keys : Word) : State :=
  sched { State.reset with run := .waitingForKey, wreg := 15, kprev := kprev } [.cycle keys 0]

theorem witness_HaltedCycleChangesNothing :
    (haltedNext (.cycle 1 2)).nextEvent = .cycle 1 2 ∧ (haltedNext (.cycle 1 2)).run = .halted := by decide

theorem witness_WaitingCycleTakesTheLeastNewKey_no_new_key :
    (waitNext 0x0002 0x0002).nextEvent = .cycle 0x0002 0 ∧ (waitNext 0x0002 0x0002).run = .waitingForKey ∧
    0x0002 &&& ~~~(waitNext 0x0002 0x0002).kprev = 0 := by decide

theorem witness_WaitingCycleTakesTheLeastNewKey_key_0 :
    let s := waitNext 0 0xFFFF
    s.nextEvent = .cycle 0xFFFF 0 ∧ s.run = .waitingForKey ∧ (0xFFFF &&& ~~~s.kprev).getLsbD 0 = true ∧
      ∀ j < 0, (0xFFFF &&& ~~~s.kprev).getLsbD j = false := by decide

theorem witness_WaitingCycleTakesTheLeastNewKey_key_15 :
    let s := waitNext 0x0002 0x8002
    s.nextEvent = .cycle 0x8002 0 ∧ s.run = .waitingForKey ∧ (0x8002 &&& ~~~s.kprev).getLsbD 15 = true ∧
      ∀ j < 15, (0x8002 &&& ~~~s.kprev).getLsbD j = false := by decide

theorem witness_TickDecrementsBothTimers :
    let s := sched { State.reset with dt := 1 } [.tick]
    s.nextEvent = .tick ∧ s.dt.toNat > 0 ∧ s.st.toNat = 0 := by decide

theorem witness_TicksCountDownToZero :
    (sched State.reset [.tick, .tick, .tick, .reset]).host.pending = List.replicate 3 .tick ++ [.reset] := by decide

theorem witness_LoadCopiesOrRejectsWhole_copies :
    let bytes : List Byte := List.replicate 3584 0xAA
    (sched State.reset [.load bytes]).nextEvent = .load bytes ∧ bytes.length ≤ 3584 := ⟨rfl, by
  rw [List.length_replicate]⟩

theorem witness_LoadCopiesOrRejectsWhole_rejects :
    let bytes : List Byte := List.replicate 3585 0xAA
    (sched State.reset [.load bytes]).nextEvent = .load bytes ∧ 3584 < bytes.length := ⟨rfl, by
  rw [List.length_replicate]
  decide⟩

theorem witness_ResetEventWritesTheResetValues : (haltedNext .reset).nextEvent = .reset := by decide

theorem witness_ResetStateIsAPostResetState :
    (sched (regs [(4, 0x09)]) [.reset]).nextEvent = .reset := by decide

theorem witness_BootLoadsTheProgram :
    let bytes : List Byte := [0x12, 0x00]
    (sched State.reset [.reset, .load [0x12, 0x00], .tick]).host.pending = bootSchedule bytes ++ [.tick] ∧
      bytes.length ≤ 3584 := by decide

theorem witness_EdgeOrdersCycleBeforeTick_reset : (Edge.mk true true true 0 0).rst = true := by decide

-- E14
theorem witness_EdgeOrdersCycleBeforeTick :
    let e := Edge.mk false true true 0 0
    let s := sched { regs [(1, 0x02)] with mem := [(0x200, 0xF1), (0x201, 0x15)] } [.cycle 0 0, .tick]
    e.rst = false ∧ e.cycleStb = true ∧ e.tickStb = true ∧ s.host.pending = edgeEvents e ++ [] ∧ s.run = .ready ∧
      s.pc.toNat ≤ 4094 ∧ decodeWord s.fetchWord = some (.ldDT 1) := by decide

theorem witness_OutputsShowTheState :
    ({ State.reset with st := 1 } : State).snd = true ∧ State.reset.snd = false := by decide

theorem witness_EveryStepKeepsTheInvariant :
    rndNext.Inv ∧ step rndNext = .next (after (step rndNext)) := ⟨by decide, rfl⟩

theorem witness_OnlyResetLeavesHalted :
    let s := haltedNext (.load [0x12, 0x00])
    s.run = .halted ∧ s.nextEvent ≠ .reset ∧ step s = .next (after (step s)) := ⟨rfl, by decide, rfl⟩

/-- An `exec` that answers a next state, as the statements write it. -/
abbrev Answers (i : Instr) (s : State) : Prop := exec i s = .next (after (exec i s))

theorem witness_OnlySixInstructionsCanHalt :
    Answers .ret State.reset ∧ State.reset.run ≠ .halted ∧ (after (exec .ret State.reset)).run = .halted := ⟨rfl, by decide, rfl⟩

theorem witness_InstructionsCompleteOrRaise :
    Answers .ret State.reset ∧ (after (exec .ret State.reset)).diag ≠ .none ∧
    Answers (.jp 0x300) State.reset ∧ (after (exec (.jp 0x300) State.reset)).diag = .none := ⟨rfl, by decide, rfl, rfl⟩

theorem witness_EachPieceOfStateHasItsOwnWriters :
    let i := Instr.jp 0x300
    Answers i State.reset ∧ (∀ x nn, i ≠ .ldImm x nn) ∧ (∀ x nn, i ≠ .addImm x nn) ∧ (∀ x y, i ≠ .ldReg x y) ∧
      (∀ x y, i ≠ .orReg x y) ∧ (∀ x y, i ≠ .andReg x y) ∧ (∀ x y, i ≠ .xorReg x y) ∧ (∀ x y, i ≠ .addReg x y) ∧
      (∀ x y, i ≠ .subReg x y) ∧ (∀ x y, i ≠ .shr x y) ∧ (∀ x y, i ≠ .subnReg x y) ∧ (∀ x y, i ≠ .shl x y) ∧
      (∀ x nn, i ≠ .rnd x nn) ∧ (∀ x y n, i ≠ .drw x y n) ∧ (∀ x, i ≠ .ldFromDT x) ∧ (∀ x, i ≠ .loadRegs x) ∧
      (∀ nnn, i ≠ .ldI nnn) ∧ (∀ x, i ≠ .addI x) ∧ (∀ x, i ≠ .ldB x) ∧ (∀ x, i ≠ .storeRegs x) ∧ i ≠ .cls ∧
      i ≠ .ret ∧ (∀ nnn, i ≠ .call nnn) ∧ (∀ x, i ≠ .ldDT x) ∧ (∀ x, i ≠ .ldST x) ∧ (∀ x, i ≠ .ldKey x) ∧
      (after (exec i State.reset)).diag = .none := by
  refine ⟨rfl, ?_⟩
  simp
  rfl

theorem witness_EachPieceOfStateHasItsOwnWriters_raise :
    Answers (.call 0x300) { State.reset with sp := 16 } ∧
    (after (exec (.call 0x300) { State.reset with sp := 16 })).diag ≠ .none := ⟨rfl, by decide⟩

theorem witness_FlagsAreZeroOrOne :
    let i := Instr.drw 1 2 3
    i ∈ [.addReg 1 2, .subReg 1 2, .subnReg 1 2, .shr 1 2, .shl 1 2, .drw 1 2 3] ∧ Answers i State.reset ∧
      (after (exec i State.reset)).diag = .none := by
  refine ⟨by simp, rfl, rfl⟩

theorem witness_KeysReachOnlyTheKeyInstructions :
    let i := Instr.rnd 3 0x0F
    (∀ x, i ≠ .skp x) ∧ (∀ x, i ≠ .sknp x) ∧ (∀ x, i ≠ .ldKey x) ∧ Answers i State.reset := by
  refine ⟨by simp, by simp, by simp, rfl⟩

theorem witness_RandomByteReachesOnlyRnd :
    let i := Instr.ldKey 3
    (∀ x nn, i ≠ .rnd x nn) ∧ Answers i State.reset := by
  refine ⟨by simp, rfl⟩

theorem witness_EqualMemoriesAreEqualData :
    let m : Memory := [(0, 0x07), (4095, 0x09)]
    let m' : Memory := Memory.write (Memory.write [(0, 0x07)] 4095 0x09) 5 0
    m.wf ∧ m'.wf ∧ ∀ a, m.read a = m'.read a := ⟨by decide, by decide, fun _ => rfl⟩

theorem witness_RetPopsOrUnderflows :
    ({ State.reset with sp := 1 } : State).sp.val = (0 : Fin 16).val + 1 ∧
    ({ State.reset with sp := 16 } : State).sp.val = (15 : Fin 16).val + 1 ∧ State.reset.sp.val = 0 := by decide

theorem witness_CallPushesOrOverflows :
    State.reset.sp.val < 16 ∧ ({ State.reset with sp := 15 } : State).sp.val < 16 ∧
    ({ State.reset with sp := 16 } : State).sp.val = 16 := by decide

theorem witness_CallThenRetReturns : ({ State.reset with sp := 15 } : State).sp.val < 16 := by decide

theorem witness_SkipsCompareRegisters :
    let s := regs [(3, 0x10), (4, 0x10), (5, 0x11)]
    (s.getV 3).toNat = (0x10#8).toNat ∧ (s.getV 3).toNat = (s.getV 4).toNat ∧
      (s.getV 5).toNat ≠ (0x10#8).toNat ∧ (s.getV 3).toNat ≠ (s.getV 5).toNat := by decide

-- the cases of AddRegWritesSumThenCarry, of the subtractions and of the shifts: x below 15, another register, x = 15
theorem witness_flag_results :
    (1 : Nibble) ≠ 15 ∧ (2 : Nibble) ≠ 15 ∧ (2 : Nibble) ≠ 1 ∧ ¬ (15 : Nibble) ≠ 15 := by decide

-- G12, G14
theorem witness_DrwXorsTheSpriteAndReportsCollision_in_range :
    ((0 : Nibble).toNat = 0 ∨ ({ State.reset with i := 0xFFFF } : State).i.toNat + (0 : Nibble).toNat - 1 ≤ 4095) ∧
    ((3 : Nibble).toNat = 0 ∨ ({ State.reset with i := 0xFFD } : State).i.toNat + (3 : Nibble).toNat - 1 ≤ 4095) := by decide

-- G13
theorem witness_DrwXorsTheSpriteAndReportsCollision_out_of_range :
    0 < (3 : Nibble).toNat ∧ 4095 < ({ State.reset with i := 0xFFE } : State).i.toNat + (3 : Nibble).toNat - 1 := by decide

/-- The state of G9: a sprite byte 0xF0 at 0x0300, two pixels ON. -/
def spriteAt : State := lit { State.reset with i := 0x300, mem := [(0x300, 0xF0)] } [(0, 3), (0, 4)]

/-- The state after `DRW V0, V1, 1` from `spriteAt`. -/
def spriteDrawn : State := after (exec (.drw 0 1 1) spriteAt)

theorem witness_DrwXorsTheSpriteAndReportsCollision_collision :
    ∃ r c, spriteAt.fb.pixel r c = true ∧ spriteDrawn.fb.pixel r c = false := ⟨0, 3, by decide⟩

theorem witness_DrwXorsTheSpriteAndReportsCollision_no_collision :
    ∀ r c, spriteAt.fb.pixel r c = true → (after (exec (.drw 0 1 0) spriteAt)).fb.pixel r c = true := fun _ _ h => h

theorem witness_RedrawingErasesTheSprite :
    Answers (.drw 2 1 1) spriteAt ∧ (after (exec (.drw 2 1 1) spriteAt)).diag = .none ∧
    spriteDrawn.getV 2 = spriteAt.getV 2 ∧ spriteDrawn.getV 1 = spriteAt.getV 1 ∧ Answers (.drw 2 1 1) spriteDrawn := ⟨rfl, rfl, by decide, by decide, rfl⟩

-- S4a
theorem witness_DrawingOnAClearDisplayShowsTheSprite :
    let s : State := { State.reset with i := 0x300, mem := [(0x300, 0x3C)] }
    Answers (.drw 0 1 2) s ∧ (after (exec (.drw 0 1 2) s)).diag = .none ∧ ∀ r c, s.fb.pixel r c = false := ⟨rfl, rfl, by simp [State.reset, Display.pixel]⟩

theorem witness_DrawingOnAClearDisplayShowsTheSprite_zero :
    Answers (.drw 0 1 2) State.reset ∧ (after (exec (.drw 0 1 2) State.reset)).diag = .none ∧
    ∀ k < (2 : Nibble).toNat, State.reset.mem.read (State.reset.i.toNat + k) = 0 := ⟨rfl, rfl, fun _ _ => rfl⟩

-- M6, M7
theorem witness_LdBStoresTheDecimalDigits :
    ({ State.reset with i := 4093 } : State).i.toNat + 2 ≤ 4095 ∧
    4095 < ({ State.reset with i := 4094 } : State).i.toNat + 2 := by decide

-- M9, M11, M12
theorem witness_StoreRegsCopiesToMemory :
    ({ State.reset with i := 4095 } : State).i.toNat + (0 : Nibble).toNat ≤ 4095 ∧
    ({ State.reset with i := 4080 } : State).i.toNat + (15 : Nibble).toNat ≤ 4095 ∧
    4095 < ({ State.reset with i := 4081 } : State).i.toNat + (15 : Nibble).toNat := by decide

-- M14, M15
theorem witness_LoadRegsCopiesFromMemory :
    ({ State.reset with i := 4095 } : State).i.toNat + (0 : Nibble).toNat ≤ 4095 ∧
    4095 < ({ State.reset with i := 4095 } : State).i.toNat + (1 : Nibble).toNat := by decide

theorem witness_StoreThenLoadRestoresTheRegisters :
    let s : State := { regs [(0, 0x11), (1, 0x22)] with i := 0x400 }
    Answers (.storeRegs 1) s ∧ (after (exec (.storeRegs 1) s)).diag = .none ∧ (1 : Nibble).toNat ≤ (1 : Nibble).toNat := ⟨rfl, rfl, by decide⟩

-- P7
theorem witness_StoreIsSeenByTheNextFetch :
    let s : State := { regs [(0, 0x12), (1, 0x08)] with pc := 0x206, i := 0x208 }
    1 ≤ (1 : Nibble).toNat ∧ s.i = s.pc + 2 ∧ Answers (.storeRegs 1) s ∧
      (after (exec (.storeRegs 1) s)).diag = .none := ⟨by decide, by decide, rfl, rfl⟩

theorem witness_HostReadsTheCodes_accepted :
    let bytes : List Byte := List.replicate 3584 0xAA
    (sched State.reset [.load bytes]).nextEvent = .load bytes ∧ bytes.length ≤ 3584 := witness_LoadCopiesOrRejectsWhole_copies

theorem witness_HostReadsTheCodes_rejected :
    let bytes : List Byte := List.replicate 3585 0xAA
    (sched State.reset [.load bytes]).nextEvent = .load bytes ∧ ¬ bytes.length ≤ 3584 := ⟨rfl, by
  rw [List.length_replicate]
  decide⟩

end Sys2Proof.Tests
end

section
/-!
PROOFS. The Load event (20_memory R70): its step, the memory after it, and O14.
-/

namespace Sys2Proof.Machine

/-- A step whose event is a Load is that Load. -/
theorem step_of_load {s : State} {bytes : List Byte} (h : s.nextEvent = .load bytes) :
    step s = .next (s.takeEvent.loadEvent bytes) := by
  rw [step, h, State.runEvent]

/-- Byte `k` of a written run stands `k` bytes after its start. -/
theorem Memory.read_writeList_getElem (m : Memory) (a : Nat) (bs : List Byte) (k : Nat) (h : k < bs.length) :
    (m.writeList a bs).read (a + k) = bs[k] := by
  have hin : a ≤ a + k ∧ a + k < a + bs.length := by omega
  rw [Memory.read_writeList, if_pos hin, Nat.add_sub_cancel_left, List.getD_eq_getElem _ _ h]

/-- A written run leaves every byte before and behind it as it was. -/
theorem Memory.read_writeList_outside (m : Memory) {a x : Nat} {bs : List Byte}
    (h : x < a ∨ a + bs.length ≤ x) : (m.writeList a bs).read x = m.read x := by
  have hout : ¬(a ≤ x ∧ x < a + bs.length) := by omega
  rw [Memory.read_writeList, if_neg hout]

/-- Settles O14, by the two answers to a Load: one writes the whole program in one run from 512, the other
writes the result alone. -/
theorem loadCopiesOrRejectsWhole : Obligations.LoadCopiesOrRejectsWhole := by
  intro s bytes hnext
  rw [step_of_load hnext]
  obtain ⟨hfits, hload⟩ | ⟨hlong, hload⟩ := s.takeEvent.loadEvent_eq bytes <;> rw [hload]
  · refine ⟨fun _ => ⟨_, rfl, rfl, fun k hk => ?_, fun a ha => ?_⟩,
      fun hlong => absurd hfits (Nat.not_le_of_lt hlong)⟩
    · exact Memory.read_writeList_getElem _ 512 bytes k hk
    · exact (Memory.read_writeList_outside _ ha).trans (by rw [State.takeEvent_mem])
  · exact ⟨fun hfits => absurd hfits (Nat.not_le_of_lt hlong), fun _ => rfl⟩

end Sys2Proof.Machine
end

section
/-!
PROOFS. The Cycle event of a READY and of a HALTED core (40_cycle R110 to R115): its step, the word it fetches,
and O8 and O10.
-/

namespace Sys2Proof.Machine

/-! ### The step of a Cycle event, by `RUN` -/

/-- A step whose event is a Cycle samples the event's inputs and runs the cycle. -/
theorem step_of_cycle {s : State} {keys : Word} {rnd : Byte} (h : s.nextEvent = .cycle keys rnd) :
    step s = (s.takeEvent.sample keys rnd).cycleEvent := by
  rw [step, h, State.runEvent]

theorem State.cycleEvent_of_ready {s : State} (h : s.run = .ready) : s.cycleEvent = s.readyStep := by
  rw [State.cycleEvent, h]

theorem State.cycleEvent_of_halted {s : State} (h : s.run = .halted) : s.cycleEvent = .next s := by
  rw [State.cycleEvent, h]

/-! ### The three outcomes of a READY cycle -/

theorem State.readyStep_of_pc_gt {s : State} (h : 4094 < s.pc.toNat) :
    s.readyStep = s.raise .outOfBoundsAccess := by
  obtain ⟨-, hstep⟩ | ⟨hle, -⟩ | ⟨hle, -⟩ := s.readyStep_cases
  · exact hstep
  · omega
  · omega

theorem State.readyStep_of_decodeWord_some {s : State} {i : Instr} (hpc : s.pc.toNat ≤ 4094)
    (hdec : decodeWord s.fetchWord = some i) : s.readyStep = exec i s := by
  obtain ⟨hgt, -⟩ | ⟨-, hnone, -⟩ | ⟨-, j, hj, hstep⟩ := s.readyStep_cases
  · omega
  · cases hnone.symm.trans hdec
  · cases hj.symm.trans hdec
    exact hstep

theorem State.readyStep_of_decodeWord_none {s : State} (hpc : s.pc.toNat ≤ 4094)
    (hdec : decodeWord s.fetchWord = none) : s.readyStep = s.skipUnknown := by
  obtain ⟨hgt, -⟩ | ⟨-, -, hstep⟩ | ⟨-, j, hj, -⟩ := s.readyStep_cases
  · omega
  · exact hstep
  · cases hj.symm.trans hdec

/-! ### The fetched word -/

/-- The word whose high byte stands at `PC` and whose low byte stands at `PC + 1` is the one fetched (R112). -/
theorem State.fetchWord_eq_of_bytes {s : State} {w : Word} (hhigh : w.extractLsb' 8 8 = s.mem.read s.pc.toNat)
    (hlow : w.extractLsb' 0 8 = s.mem.read (s.pc.toNat + 1)) : s.fetchWord = w := by
  rw [State.fetchWord, ← hhigh, ← hlow, wordOfBytes_bytesOfWord]

/-- Sampling the inputs and taking the event off the schedule leave the fetched word as it was. -/
@[simp] theorem State.fetchWord_takeEvent_sample (s : State) (keys : Word) (rnd : Byte) :
    (s.takeEvent.sample keys rnd).fetchWord = s.fetchWord := by
  simp only [State.fetchWord, State.sample_mem, State.sample_pc, State.takeEvent_mem, State.takeEvent_pc]

/-! ### The obligations -/

/-- Settles O8, by the three outcomes of a READY cycle in the state with the event's inputs sampled, whose `PC`
and fetched word are those of `s`. -/
theorem readyCycleFetchesBigEndianOrHalts : Obligations.ReadyCycleFetchesBigEndianOrHalts := by
  intro s keys rnd hnext hrun
  have hpc : (s.takeEvent.sample keys rnd).pc = s.pc := by simp
  have hready : step s = (s.takeEvent.sample keys rnd).readyStep := by
    rw [step_of_cycle hnext, State.cycleEvent_of_ready (by simpa using hrun)]
  rw [hready, ← hpc]
  refine ⟨State.readyStep_of_pc_gt, fun hle w hhigh hlow => ?_⟩
  have hfetch : (s.takeEvent.sample keys rnd).fetchWord = w :=
    State.fetchWord_eq_of_bytes (by simpa using hhigh) (by simpa using hlow)
  rw [← hfetch]
  exact ⟨fun i => State.readyStep_of_decodeWord_some hle, State.readyStep_of_decodeWord_none hle⟩

/-- Settles O10: the HALTED cycle answers the sampled state, which differs from `s` in the bookkeeping alone. -/
theorem haltedCycleChangesNothing : Obligations.HaltedCycleChangesNothing := by
  intro s keys rnd hnext hrun
  constructor
  · rw [step_of_cycle hnext, State.cycleEvent_of_halted (by simpa using hrun)]
  · rw [State.sample, State.takeEvent_eq]

end Sys2Proof.Machine
end

section
/-!
PROOFS. Control transfer (41_control_transfer R130 to R138): the value of a jump's target, the two endings of RET
and of CALL, the two forms of a register skip, and O32 to O34, O36 and O37.
-/

namespace Sys2Proof.Machine

/-! ### Widened operands as numbers -/

@[simp] theorem zextAddr_toNat (nnn : Addr) : (zextAddr nnn).toNat = nnn.toNat :=
  BitVec.toNat_setWidth_of_le (by decide)

@[simp] theorem zextByte_toNat (b : Byte) : (zextByte b).toNat = b.toNat :=
  BitVec.toNat_setWidth_of_le (by decide)

/-- A byte and a 12-bit address sum to at most 4350, so their 16-bit sum does not wrap (R138). -/
theorem zextByte_add_zextAddr_toNat (b : Byte) (nnn : Addr) :
    (zextByte b + zextAddr nnn).toNat = b.toNat + nnn.toNat := by
  have hsum : b.toNat + nnn.toNat < 2 ^ 16 := by omega
  rw [BitVec.toNat_add, zextByte_toNat, zextAddr_toNat, Nat.mod_eq_of_lt hsum]

/-! ### The two endings of RET and of CALL -/

theorem exec_ret_of_sp_zero {s : State} (h : s.sp.val = 0) : exec .ret s = s.raise .stackUnderflow := by
  obtain ⟨-, hpop⟩ | ⟨hpos, -⟩ := s.pop_eq
  · rw [exec, execRet, hpop]
  · omega

theorem exec_ret_of_sp_pos {s : State} (h : 0 < s.sp.val) :
    exec .ret s = State.completeAt { s with sp := ⟨s.sp.val - 1, by omega⟩ } s.stk[s.sp.val - 1] := by
  obtain ⟨hzero, -⟩ | ⟨_, hpop⟩ := s.pop_eq
  · omega
  · rw [exec, execRet, hpop]

theorem exec_call_of_sp_full {s : State} (nnn : Addr) (h : s.sp.val = 16) :
    exec (.call nnn) s = s.raise .stackOverflow := by
  obtain ⟨-, hpush⟩ | ⟨hlt, -⟩ := s.push_eq (s.pc + 2)
  · rw [exec, execCall, hpush]
  · omega

theorem exec_call_of_sp_lt {s : State} (nnn : Addr) (h : s.sp.val < 16) :
    exec (.call nnn) s =
      State.completeAt { s with stk := s.stk.set s.sp.val (s.pc + 2), sp := ⟨s.sp.val + 1, by omega⟩ }
        (zextAddr nnn) := by
  obtain ⟨hfull, -⟩ | ⟨_, hpush⟩ := s.push_eq (s.pc + 2)
  · omega
  · rw [exec, execCall, hpush]

/-! ### The two forms of a register skip -/

/-- A skip on equality compares the bytes as numbers (R134, R136). -/
theorem State.skipIf_beq (s : State) (a b : Byte) :
    s.skipIf (a == b) = .next { s with pc := if a.toNat = b.toNat then s.pc + 4 else s.pc + 2, diag := .none } := by
  simp only [State.skipIf, State.completeAt, beq_iff_eq, BitVec.toNat_eq]

/-- A skip on inequality compares the bytes as numbers (R135, R137). -/
theorem State.skipIf_bne (s : State) (a b : Byte) :
    s.skipIf (a != b) = .next { s with pc := if a.toNat = b.toNat then s.pc + 2 else s.pc + 4, diag := .none } := by
  simp only [State.skipIf, State.completeAt, bne_iff_ne, ne_eq, ite_not, BitVec.toNat_eq]

/-! ### The obligations -/

/-- Settles O32, by the two endings of RET: entry `k` is the one on top when `SP` is `k + 1`. -/
theorem retPopsOrUnderflows : Obligations.RetPopsOrUnderflows := by
  intro s
  refine ⟨fun k hk => ?_, exec_ret_of_sp_zero⟩
  have htop : s.sp.val - 1 = k.val := by omega
  have hret := exec_ret_of_sp_pos (s := s) (by omega)
  simp only [htop] at hret
  exact ⟨_, hret, rfl, rfl⟩

/-- Settles O33: JP completes at its address widened to 16 bits. -/
theorem jpSetsPc : Obligations.JpSetsPc := by
  intro nnn s
  have hjp : exec (.jp nnn) s = s.completeAt (zextAddr nnn) := rfl
  exact ⟨_, hjp, rfl, zextAddr_toNat nnn⟩

/-- Settles O34, by the two endings of CALL: the push writes entry `SP` alone. -/
theorem callPushesOrOverflows : Obligations.CallPushesOrOverflows := by
  intro nnn s
  refine ⟨fun hlt => ?_, exec_call_of_sp_full nnn⟩
  refine ⟨_, exec_call_of_sp_lt nnn hlt, rfl, zextAddr_toNat nnn, rfl, fun k => ?_⟩
  exact (Vector.getElem_set hlt k.isLt).trans (if_congr eq_comm rfl rfl)

/-- Settles O36: SE skips on equality and SNE on inequality of the same two bytes. -/
theorem skipsCompareRegisters : Obligations.SkipsCompareRegisters := by
  intro x y nn s
  exact ⟨s.skipIf_beq (s.getV x) nn, s.skipIf_bne (s.getV x) nn,
    s.skipIf_beq (s.getV x) (s.getV y), s.skipIf_bne (s.getV x) (s.getV y)⟩

/-- Settles O37: JP V0 completes at a 16-bit sum that does not wrap. -/
theorem jpV0AddsWithoutMasking : Obligations.JpV0AddsWithoutMasking := by
  intro nnn s
  have hjp : exec (.jpV0 nnn) s = s.completeAt (zextByte (s.getV 0) + zextAddr nnn) := rfl
  exact ⟨_, hjp, rfl, zextByte_add_zextAddr_toNat (s.getV 0) nnn⟩

end Sys2Proof.Machine
end

section
/-!
PROOFS. Loads, arithmetic, logic, shifts, the index register and the random byte (42_alu R150 to R165): the two ways
such an instruction ends, each result and flag as a number, the shared subtraction, and O38 to O44.
-/

namespace Sys2Proof.Machine

/-! ### How a register instruction ends -/

/-- An instruction that writes `V[x]` alone and goes on: `VF` is a register like any other. -/
theorem State.setV_completeNext (s : State) (x : Nibble) (result : Byte) :
    ∃ t, (s.setV x result).completeNext = .next t ∧ t = { s with v := t.v, pc := s.pc + 2, diag := .none } ∧
      ∀ k, t.getV k = if k = x then result else s.getV k :=
  ⟨_, rfl, rfl, fun k => s.getV_setV x k result⟩

/-- The same ending, with the result known bit by bit. -/
theorem State.setV_completeNext_bits (s : State) (x : Nibble) {result : Byte} {bits : Nat → Bool}
    (hbits : ∀ b < 8, result.getLsbD b = bits b) :
    ∃ t, (s.setV x result).completeNext = .next t ∧ t = { s with v := t.v, pc := s.pc + 2, diag := .none } ∧
      (∀ k, k ≠ x → t.getV k = s.getV k) ∧ ∀ b < 8, (t.getV x).getLsbD b = bits b := by
  obtain ⟨t, hnext, hframe, hv⟩ := s.setV_completeNext x result
  have hx : t.getV x = result := (hv x).trans (if_pos rfl)
  exact ⟨t, hnext, hframe, fun k hk => (hv k).trans (if_neg hk), hx ▸ hbits⟩

/-- An instruction that writes `V[x]`, then `VF`, and goes on: with `x = 15` the flag is what stays (R22, D9). -/
theorem State.setResultFlag_completeNext (s : State) (x : Nibble) (result : Byte) (f : Bool) :
    ∃ t, (s.setResultFlag x result f).completeNext = .next t ∧
      t = { s with v := t.v, pc := s.pc + 2, diag := .none } ∧
      (∀ k, k ≠ 15 → k ≠ x → t.getV k = s.getV k) ∧
      (x ≠ 15 → t.getV x = result) ∧ t.getV 15 = flagByte f := by
  have hv := s.getV_setResultFlag x result f
  refine ⟨_, rfl, rfl, fun k hflag hk => ?_, fun hflag => ?_, ?_⟩
  · exact (hv k).trans ((if_neg hflag).trans (if_neg hk))
  · exact (hv x).trans ((if_neg hflag).trans (if_pos rfl))
  · exact (hv 15).trans (if_pos rfl)

/-! ### Results and flags as numbers -/

/-- A byte difference is the integer difference mod 256. -/
theorem byte_sub_toNat (a b : Byte) : ((a - b).toNat : Int) = ((a.toNat : Int) - b.toNat) % 256 := by
  rw [BitVec.toNat_sub]
  omega

theorem byte_shiftRight_one_toNat (a : Byte) : (a >>> 1).toNat = a.toNat / 2 := by
  rw [BitVec.toNat_ushiftRight, Nat.shiftRight_eq_div_pow, Nat.pow_one]

theorem byte_shiftLeft_one_toNat (a : Byte) : (a <<< 1).toNat = 2 * a.toNat % 256 := by
  rw [BitVec.toNat_shiftLeft, Nat.shiftLeft_eq, Nat.pow_one, Nat.mul_comm]

theorem flagByte_carryOut (a b : Byte) : flagByte (carryOut a b) = if a.toNat + b.toNat > 255 then 1 else 0 :=
  if_congr (carryOut_iff a b) rfl rfl

theorem flagByte_noBorrow (minuend subtrahend : Byte) :
    flagByte (noBorrow minuend subtrahend) = if minuend.toNat ≥ subtrahend.toNat then 1 else 0 :=
  if_congr (noBorrow_iff minuend subtrahend) rfl rfl

/-- `I` plus a byte wraps mod 65536 (R163, D12). -/
theorem word_add_zextByte_toNat (w : Word) (b : Byte) : (w + zextByte b).toNat = (w.toNat + b.toNat) % 65536 := by
  rw [BitVec.toNat_add, zextByte_toNat]

/-! ### The subtraction that SUB and SUBN share -/

/-- A subtraction of any two bytes into `V[x]`: SUB and SUBN differ in the order of the operands alone. -/
theorem State.subtraction_completeNext (s : State) (x : Nibble) (minuend subtrahend : Byte) :
    ∃ t, (s.setResultFlag x (minuend - subtrahend) (noBorrow minuend subtrahend)).completeNext = .next t ∧
      t = { s with v := t.v, pc := s.pc + 2, diag := .none } ∧
      (∀ k, k ≠ 15 → k ≠ x → t.getV k = s.getV k) ∧
      (x ≠ 15 → ((t.getV x).toNat : Int) = ((minuend.toNat : Int) - subtrahend.toNat) % 256) ∧
      t.getV 15 = if minuend.toNat ≥ subtrahend.toNat then 1 else 0 := by
  obtain ⟨t, hnext, hframe, hothers, hx, hflag⟩ :=
    s.setResultFlag_completeNext x (minuend - subtrahend) (noBorrow minuend subtrahend)
  exact ⟨t, hnext, hframe, hothers, fun h => by rw [hx h, byte_sub_toNat], by rw [hflag, flagByte_noBorrow]⟩

/-! ### The obligations -/

/-- Settles O41: SUB and SUBN are one subtraction with its operands exchanged. -/
theorem subtractionsWriteDifferenceThenNoBorrow : Obligations.SubtractionsWriteDifferenceThenNoBorrow := by
  intro x y s
  exact ⟨s.subtraction_completeNext x (s.getV x) (s.getV y), s.subtraction_completeNext x (s.getV y) (s.getV x)⟩

/-- Settles O42, by the result-and-flag ending: a shift by one halves or doubles, and loses bit 0 or bit 7. -/
theorem shiftsWriteVxThenTheBitShiftedOut : Obligations.ShiftsWriteVxThenTheBitShiftedOut := by
  intro x y s
  constructor
  · obtain ⟨t, hnext, hframe, hothers, hx, hflag⟩ :=
      s.setResultFlag_completeNext x (s.getV x >>> 1) (lowBit (s.getV x))
    exact ⟨t, hnext, hframe, hothers, fun h => by rw [hx h, byte_shiftRight_one_toNat],
      by rw [hflag, flagByte_lowBit]⟩
  · obtain ⟨t, hnext, hframe, hothers, hx, hflag⟩ :=
      s.setResultFlag_completeNext x (s.getV x <<< 1) (highBit (s.getV x))
    exact ⟨t, hnext, hframe, hothers, fun h => by rw [hx h, byte_shiftLeft_one_toNat],
      by rw [hflag, flagByte_highBit]⟩

/-- Settles O38, by the one-register ending; the sum is read as a number. -/
theorem loadsAndAddImmediateWriteVx : Obligations.LoadsAndAddImmediateWriteVx := by
  intro x y nn s
  refine ⟨s.setV_completeNext x nn, s.setV_completeNext x (s.getV y), ?_⟩
  obtain ⟨t, hnext, hframe, hv⟩ := s.setV_completeNext x (s.getV x + nn)
  exact ⟨t, hnext, hframe, fun k => by rw [hv k, apply_ite BitVec.toNat, BitVec.toNat_add]⟩

/-- Settles O39, by the one-register ending bit by bit. -/
theorem logicWritesVxAlone : Obligations.LogicWritesVxAlone := by
  intro x y s
  exact ⟨s.setV_completeNext_bits x (result := s.getV x ||| s.getV y) fun _ _ => BitVec.getLsbD_or,
    s.setV_completeNext_bits x (result := s.getV x &&& s.getV y) fun _ _ => BitVec.getLsbD_and,
    s.setV_completeNext_bits x (result := s.getV x ^^^ s.getV y) fun _ _ => BitVec.getLsbD_xor⟩

/-- Settles O40, by the result-and-flag ending. -/
theorem addRegWritesSumThenCarry : Obligations.AddRegWritesSumThenCarry := by
  intro x y s
  obtain ⟨t, hnext, hframe, hothers, hx, hflag⟩ :=
    s.setResultFlag_completeNext x (s.getV x + s.getV y) (carryOut (s.getV x) (s.getV y))
  exact ⟨t, hnext, hframe, hothers, fun h => by rw [hx h, BitVec.toNat_add], by rw [hflag, flagByte_carryOut]⟩

/-- Settles O43: a widened address keeps its value, and a sum of words wraps at 16 bits. -/
theorem indexLoadsAndAdds : Obligations.IndexLoadsAndAdds := by
  intro nnn x s
  exact ⟨⟨_, rfl, rfl, zextAddr_toNat nnn⟩, ⟨_, rfl, rfl, word_add_zextByte_toNat s.i (s.getV x)⟩⟩

/-- Settles O44, by the one-register ending bit by bit. -/
theorem rndMasksTheSampledByte : Obligations.RndMasksTheSampledByte := by
  intro x nn s
  exact s.setV_completeNext_bits x (result := s.host.rnd &&& nn) fun _ _ => BitVec.getLsbD_and

end Sys2Proof.Machine
end

section
/-!
PROOFS. The display instructions (43_display R171 to R173): the collision flag as a pixel that went from ON to OFF,
the two endings of DRW, and O45 and O31.
-/

namespace Sys2Proof.Machine

/-! ### The collision flag, by the display before and after -/

/-- Under an ON pixel, a sprite bit is what turns it OFF: the flag `draw_sprite` returns tells whether some pixel
went from ON to OFF (R172). -/
theorem drawSprite_collision_iff_turnedOff (fb : Display) (x0 y0 : Byte) {rows : List Byte} (hlen : rows.length ≤ 32) :
    (drawSprite fb x0 y0 rows).2 = true ↔
      ∃ r c, fb.pixel r c = true ∧ (drawSprite fb x0 y0 rows).1.pixel r c = false := by
  rw [drawSprite_collision fb x0 y0 rows hlen]
  refine exists₂_congr fun r c => ?_
  rw [pixel_drawSprite fb x0 y0 rows hlen, and_comm]
  refine and_congr_right fun hon => ?_
  rw [hon, Bool.true_xor, Bool.not_eq_false']

/-- No pixel went from ON to OFF: the flag is clear. -/
theorem drawSprite_collision_eq_false {fb : Display} {x0 y0 : Byte} {rows : List Byte} (hlen : rows.length ≤ 32)
    (hkept : ∀ r c, fb.pixel r c = true → (drawSprite fb x0 y0 rows).1.pixel r c = true) :
    (drawSprite fb x0 y0 rows).2 = false := by
  refine Bool.eq_false_of_not_eq_true fun hflag => ?_
  obtain ⟨r, c, hon, hoff⟩ := (drawSprite_collision_iff_turnedOff fb x0 y0 hlen).mp hflag
  exact Bool.false_ne_true (hoff.symm.trans (hkept r c hon))

/-- A run of `n` sprite rows, at most 15, is no taller than the display (R172). -/
theorem Memory.readList_nibble_length_le (m : Memory) (a : Nat) (n : Nibble) :
    (m.readList a n.toNat).length ≤ 32 := by
  rw [Memory.readList_length]
  omega

/-! ### The two endings of DRW -/

/-- What the `DRW Vx, Vy, n` of a state draws: the new display and the collision flag (R173). -/
def State.drawn (s : State) (x y n : Nibble) : Display × Bool :=
  drawSprite s.fb (s.getV x) (s.getV y) (s.mem.readList s.i.toNat n.toNat)

theorem exec_drw_of_inRange {s : State} (x y : Nibble) {n : Nibble}
    (h : n.toNat = 0 ∨ s.i.toNat + n.toNat - 1 ≤ 4095) :
    exec (.drw x y n) s =
      (State.setFlag { s with fb := (s.drawn x y n).1 } (s.drawn x y n).2).completeNext := by
  rw [exec, execDrw, if_pos ((s.dataInRange_iff n.toNat).mpr h)]
  rfl

theorem exec_drw_of_outOfRange {s : State} (x y : Nibble) {n : Nibble} (hpos : 0 < n.toNat)
    (h : 4095 < s.i.toNat + n.toNat - 1) : exec (.drw x y n) s = s.raise .outOfBoundsAccess := by
  have hout : ¬s.dataInRange n.toNat = true := by
    rw [State.dataInRange_iff]
    omega
  rw [exec, execDrw, if_neg hout]

/-! ### The obligations -/

/-- Settles O45, by the two endings of DRW: the pixels and the flag are those of `draw_sprite`, and `VF` is the one
register written. -/
theorem drwXorsTheSpriteAndReportsCollision : Obligations.DrwXorsTheSpriteAndReportsCollision := by
  intro x y n s
  refine ⟨fun hin => ?_, exec_drw_of_outOfRange x y⟩
  have hlen := s.mem.readList_nibble_length_le s.i.toNat n
  have hv := State.getV_setFlag { s with fb := (s.drawn x y n).1 } (s.drawn x y n).2
  have hflag := (hv 15).trans (if_pos rfl)
  refine ⟨_, exec_drw_of_inRange x y hin, rfl, fun r c => ?_, fun k hk => ?_, fun hturned => ?_, fun hkept => ?_⟩
  · exact pixel_drawSprite s.fb (s.getV x) (s.getV y) _ hlen r c
  · exact (hv k).trans (if_neg hk)
  · have hcoll : (s.drawn x y n).2 = true := (drawSprite_collision_iff_turnedOff _ _ _ hlen).mpr hturned
    exact hflag.trans (congrArg flagByte hcoll)
  · have hcoll : (s.drawn x y n).2 = false := drawSprite_collision_eq_false hlen hkept
    exact hflag.trans (congrArg flagByte hcoll)

/-- Settles O31: CLS completes on the cleared display, every pixel of which is OFF. -/
theorem clsClearsTheDisplay : Obligations.ClsClearsTheDisplay := by
  intro s
  have hcls : exec .cls s = State.completeNext { s with fb := Display.clear } := rfl
  exact ⟨_, hcls, rfl, Display.pixel_clear⟩

end Sys2Proof.Machine
end

section
/-!
PROOFS. Keypad and timer instructions and the waiting cycle (44_keypad_timers R180 to R187): the two outcomes of a
wait step, the two forms of a key skip, and O11 and O48 to O50.
-/

namespace Sys2Proof.Machine

/-! ### The two outcomes of a waiting cycle -/

theorem State.cycleEvent_of_waitingForKey {s : State} (h : s.run = .waitingForKey) :
    s.cycleEvent = .next s.waitStep := by
  rw [State.cycleEvent, h]

/-- No key newly pressed: the wait goes on, and the sample is kept (R183). -/
theorem State.waitStep_of_newKeys_zero {s : State} (h : s.newKeys = 0) :
    s.waitStep = { s with diag := .noProgress, kprev := s.host.keys } := by
  rw [State.waitStep, h, leastKey_zero]

/-- Key `k` newly pressed and no lower one: it ends the wait, and the sample is kept (R183, D15). -/
theorem State.waitStep_of_least {s : State} {k : Nat} (hk : k < 16) (hnew : s.newKeys.getLsbD k = true)
    (hleast : ∀ j < k, s.newKeys.getLsbD j = false) :
    s.waitStep =
      { s.setV s.wreg (BitVec.ofNat 8 k) with run := .ready, diag := .none, kprev := s.host.keys } := by
  rw [State.waitStep, leastKey_eq_some hk hnew hleast]

/-- The new keys of a Cycle event are those of its own sample against the `KPREV` before it. -/
@[simp] theorem State.newKeys_takeEvent_sample (s : State) (keys : Word) (rnd : Byte) :
    (s.takeEvent.sample keys rnd).newKeys = keys &&& ~~~s.kprev := by
  rw [State.newKeys, State.sample_keys, State.sample_kprev, State.takeEvent_kprev]

/-! ### The two forms of a key skip -/

/-- A skip on the negated condition exchanges the two targets. -/
theorem State.skipIf_not (s : State) (cond : Bool) :
    s.skipIf (!cond) = .next { s with pc := if cond then s.pc + 2 else s.pc + 4, diag := .none } := by
  cases cond <;> rfl

/-! ### The obligations -/

/-- Settles O11, by the two outcomes of a wait step in the state with the event's inputs sampled. -/
theorem waitingCycleTakesTheLeastNewKey : Obligations.WaitingCycleTakesTheLeastNewKey := by
  intro s keys rnd hnext hrun
  have hwait : step s = .next (s.takeEvent.sample keys rnd).waitStep := by
    rw [step_of_cycle hnext, State.cycleEvent_of_waitingForKey (by simpa using hrun)]
  rw [hwait, ← s.newKeys_takeEvent_sample keys rnd]
  refine ⟨fun hnone => ?_, fun k hk hnew hleast => ?_⟩
  · rw [State.waitStep_of_newKeys_zero hnone, State.sample_keys]
  · rw [State.waitStep_of_least hk hnew hleast]
    refine ⟨_, rfl, rfl, fun r => ?_⟩
    have hv := (s.takeEvent.sample keys rnd).getV_setV (s.takeEvent.sample keys rnd).wreg r (BitVec.ofNat 8 k)
    exact hv.trans (by simp)

/-- Settles O48: both skips test the same bit of the sample, SKNP its negation. -/
theorem keySkipsTestTheLowFourBits : Obligations.KeySkipsTestTheLowFourBits := by
  intro x s
  have hskp : exec (.skp x) s = s.skipIf (s.keyHeld x) := rfl
  have hsknp : exec (.sknp x) s = s.skipIf (!s.keyHeld x) := rfl
  exact ⟨hskp, hsknp.trans (s.skipIf_not (s.keyHeld x))⟩

/-- Settles O49: LD Vx,K completes with `WREG`, `KPREV` and `RUN` written and no register. -/
theorem ldKeyBeginsTheWait : Obligations.LdKeyBeginsTheWait := by
  intro x s
  have hldKey : exec (.ldKey x) s =
      State.completeNext { s with wreg := x, kprev := s.host.keys, run := .waitingForKey } := rfl
  exact hldKey

/-- Settles O50: reading DT is a one-register ending, and writing a timer completes with that timer replaced. -/
theorem timerTransfersMoveOneByte : Obligations.TimerTransfersMoveOneByte := by
  intro x s
  have hldDT : exec (.ldDT x) s = State.completeNext { s with dt := s.getV x } := rfl
  have hldST : exec (.ldST x) s = State.completeNext { s with st := s.getV x } := rfl
  exact ⟨s.setV_completeNext x s.dt, hldDT, hldST⟩

end Sys2Proof.Machine
end

section
/-!
PROOFS. The memory transfers (45_memory_transfer R190 to R193): the range check that all three share, the ending of an
instruction that writes a run of bytes from `I`, and O51 to O53.
-/

namespace Sys2Proof.Machine

/-! ### The range check, and each instruction by it -/

/-- The range check on a run that ends at `I + n` (R64). -/
theorem State.dataInRange_succ_iff (s : State) (n : Nat) :
    s.dataInRange (n + 1) = true ↔ s.i.toNat + n ≤ 4095 := by
  rw [State.dataInRange_iff]
  omega

theorem exec_ldB (x : Nibble) (s : State) :
    exec (.ldB x) s = if s.i.toNat + 2 ≤ 4095 then
        State.completeNext { s with mem := s.mem.writeList s.i.toNat (bcdDigits (s.getV x)) }
      else s.raise .outOfBoundsAccess :=
  if_congr (s.dataInRange_succ_iff 2) rfl rfl

theorem exec_storeRegs (x : Nibble) (s : State) :
    exec (.storeRegs x) s = if s.i.toNat + x.toNat ≤ 4095 then
        State.completeNext { s with mem := s.mem.writeList s.i.toNat (s.regsTo x) }
      else s.raise .outOfBoundsAccess :=
  if_congr (s.dataInRange_succ_iff x.toNat) rfl rfl

theorem exec_loadRegs (x : Nibble) (s : State) :
    exec (.loadRegs x) s = if s.i.toNat + x.toNat ≤ 4095 then
        (s.setRegsTo x fun k => s.mem.read (s.i.toNat + k)).completeNext
      else s.raise .outOfBoundsAccess :=
  if_congr (s.dataInRange_succ_iff x.toNat) rfl rfl

/-! ### How a store ends -/

/-- An instruction that writes a run of bytes to `I`, `I + 1`, ... and goes on: memory alone changes, and of memory
the run alone. -/
theorem State.writeList_completeNext (s : State) (bs : List Byte) :
    ∃ t, State.completeNext { s with mem := s.mem.writeList s.i.toNat bs } = .next t ∧
      t = { s with mem := t.mem, pc := s.pc + 2, diag := .none } ∧
      (∀ k (hk : k < bs.length), t.mem.read (s.i.toNat + k) = bs[k]) ∧
      ∀ a, a < s.i.toNat ∨ s.i.toNat + bs.length ≤ a → t.mem.read a = s.mem.read a :=
  ⟨_, rfl, rfl, s.mem.read_writeList_getElem s.i.toNat bs, fun _ => s.mem.read_writeList_outside⟩

/-! ### The bytes stored -/

@[simp] theorem bcdDigits_length (b : Byte) : (bcdDigits b).length = 3 := rfl

/-- The digits as numbers, hundreds first (R191, D19). -/
theorem bcdDigits_getElem_toNat (b : Byte) :
    (bcdDigits b)[0].toNat = b.toNat / 100 ∧ (bcdDigits b)[1].toNat = b.toNat / 10 % 10 ∧
      (bcdDigits b)[2].toNat = b.toNat % 10 := by
  simp [bcdDigits]

theorem State.regsTo_getElem (s : State) {x k : Nibble} (h : k.toNat ≤ x.toNat) :
    (s.regsTo x)[k.toNat]'(by rw [State.regsTo_length]; omega) = s.getV k := by
  rw [← s.regsTo_getD x k h, List.getD_eq_getElem]

/-! ### The obligations -/

/-- Settles O51, by the range check and the ending of a store, whose run is the three digits. -/
theorem ldBStoresTheDecimalDigits : Obligations.LdBStoresTheDecimalDigits := by
  intro x s
  rw [exec_ldB]
  refine ⟨fun hin => ?_, fun hout => if_neg (Nat.not_le_of_lt hout)⟩
  rw [if_pos hin]
  obtain ⟨t, hnext, hframe, hrun, hothers⟩ := s.writeList_completeNext (bcdDigits (s.getV x))
  obtain ⟨hhundreds, htens, hones⟩ := bcdDigits_getElem_toNat (s.getV x)
  rw [bcdDigits_length] at hothers
  refine ⟨t, hnext, hframe, ?_, ?_, ?_, fun a ha => hothers a (by omega)⟩
  · exact (congrArg BitVec.toNat (hrun 0 (by simp))).trans hhundreds
  · exact (congrArg BitVec.toNat (hrun 1 (by simp))).trans htens
  · exact (congrArg BitVec.toNat (hrun 2 (by simp))).trans hones

/-- Settles O52, by the range check and the ending of a store, whose run is the registers up to `x`. -/
theorem storeRegsCopiesToMemory : Obligations.StoreRegsCopiesToMemory := by
  intro x s
  rw [exec_storeRegs]
  refine ⟨fun hin => ?_, fun hout => if_neg (Nat.not_le_of_lt hout)⟩
  rw [if_pos hin]
  obtain ⟨t, hnext, hframe, hrun, hothers⟩ := s.writeList_completeNext (s.regsTo x)
  rw [State.regsTo_length] at hothers
  refine ⟨t, hnext, hframe, fun k hk => ?_, fun a ha => hothers a (by omega)⟩
  exact (hrun k.toNat _).trans (s.regsTo_getElem hk)

/-- Settles O53, by the range check: a load completes with the registers up to `x` replaced. -/
theorem loadRegsCopiesFromMemory : Obligations.LoadRegsCopiesFromMemory := by
  intro x s
  rw [exec_loadRegs]
  refine ⟨fun hin => ?_, fun hout => if_neg (Nat.not_le_of_lt hout)⟩
  rw [if_pos hin]
  exact ⟨_, rfl, rfl, s.getV_setRegsTo x fun k => s.mem.read (s.i.toNat + k)⟩

end Sys2Proof.Machine
end

section
/-!
PROOFS. The Tick event (60_exceptions R220, R221): its step, a timer's decrement by its two cases, and O12.
-/

namespace Sys2Proof.Machine

/-- A step whose event is a Tick counts both timers down, whatever `RUN` is (R221). -/
theorem step_of_tick {s : State} (h : s.nextEvent = .tick) : step s = .next s.takeEvent.tickEvent := by
  rw [step, h, State.runEvent]

@[simp] theorem State.tickEvent_dt (s : State) : s.tickEvent.dt = timerTick s.dt := rfl
@[simp] theorem State.tickEvent_st (s : State) : s.tickEvent.st = timerTick s.st := rfl

/-- A timer's decrement in the two cases of R220: above 0, and held at 0. -/
theorem timerTick_toNat_eq_ite (t : Byte) : (timerTick t).toNat = if t.toNat > 0 then t.toNat - 1 else 0 := by
  rw [timerTick_toNat]
  split <;> omega

/-- Settles O12: the state after the Tick differs from the one it was taken in by the two timers alone, and each
timer's value is the decrement of its own. -/
theorem tickDecrementsBothTimers : Obligations.TickDecrementsBothTimers := by
  intro s hnext
  refine ⟨s.takeEvent.tickEvent, step_of_tick hnext, rfl, ?_, ?_⟩
  · rw [State.tickEvent_dt, State.takeEvent_dt, timerTick_toNat_eq_ite]
  · rw [State.tickEvent_st, State.takeEvent_st, timerTick_toNat_eq_ite]

end Sys2Proof.Machine
end

section
/-!
PROOFS. The Reset event (70_reset_and_hazards R240): its step, every register after it, and O15.
-/

namespace Sys2Proof.Machine

/-- A step whose event is a Reset is that Reset, whatever `RUN` is. -/
theorem step_of_reset {s : State} (h : s.nextEvent = .reset) : step s = .next s.takeEvent.resetEvent := by
  rw [step, h, State.runEvent]

@[simp] theorem State.getV_resetEvent (s : State) (x : Nibble) : s.resetEvent.getV x = 0 :=
  Vector.getElem_replicate x.isLt

/-- Settles O15, on the state the Reset event writes: the display and the registers are uniform, the other rows of
R48 are written out, and `MEM` and `STK` are those from before the event was taken off the schedule. -/
theorem resetEventWritesTheResetValues : Obligations.ResetEventWritesTheResetValues := by
  intro s hnext
  have hpixels : ∀ r c, s.takeEvent.resetEvent.fb.pixel r c = false := Display.pixel_clear
  have hregs : ∀ x, s.takeEvent.resetEvent.getV x = 0 := s.takeEvent.getV_resetEvent
  exact ⟨_, step_of_reset hnext, rfl, hpixels, rfl, hregs, rfl, rfl, rfl, rfl, rfl, rfl, rfl,
    s.takeEvent_mem, s.takeEvent_stk, rfl⟩

end Sys2Proof.Machine
end

section
/-!
PROOFS. The encoding (30_encoding R91 to R98): the word of a decoded instruction, the instruction of a word that a row
admits, the unknown words, and O1 to O6.
-/

namespace Sys2Proof

/-! ### The decoder on the packed formats -/

/-- Settles O1, format by format: each field of a packed word is what was packed, so the decoder finds the opcode
nibble, then the sub-opcode, then the operands. -/
theorem encodedInstructionsDecodeToThemselves : Obligations.EncodedInstructionsDecodeToThemselves := by
  intro i
  rw [encode.eq_def]
  cases i with
  | cls | ret => decide
  | jp | call | ldI | jpV0 => simp [decodeWord]
  | seImm | sneImm | ldImm | addImm | rnd => simp [decodeWord]
  | drw => simp [decodeWord]
  | seReg => simp [decodeWord, decodeSeReg]
  | sneReg => simp [decodeWord, decodeSneReg]
  | ldReg | orReg | andReg | xorReg | addReg | subReg | shr | subnReg | shl => simp [decodeWord, decodeArith]
  | skp | sknp => simp [decodeWord, decodeKeySkip]
  | ldFromDT | ldKey | ldDT | ldST | addI | ldB | storeRegs | loadRegs => simp [decodeWord, decodeMisc]

/-! ### A word with known fields is what they pack to -/

theorem packNNN_eq_of_fields {w : Word} {op : Nibble} (hop : fieldOp w = op) : packNNN op (fieldNNN w) = w := by
  rw [← hop, packNNN_fields]

theorem packXNN_eq_of_fields {w : Word} {op : Nibble} {nn : Byte} (hop : fieldOp w = op) (hnn : fieldNN w = nn) :
    packXNN op (fieldX w) nn = w := by
  rw [← hop, ← hnn, packXNN_fields]

theorem packXYN_eq_of_fields {w : Word} {op n : Nibble} (hop : fieldOp w = op) (hn : fieldN w = n) :
    packXYN op (fieldX w) (fieldY w) n = w := by
  rw [← hop, ← hn, packXYN_fields]

/-! ### The word of a decoded instruction -/

theorem encode_of_decodeFixed {w : Word} {i : Instr} (h : decodeFixed w = some i) : encode i = w := by
  unfold decodeFixed at h
  split_ifs at h with hcls hret <;> cases h
  · exact hcls.symm
  · exact hret.symm

theorem encode_of_decodeSeReg {w : Word} {i : Instr} (hop : fieldOp w = 0x5) (h : decodeSeReg w = some i) :
    encode i = w := by
  unfold decodeSeReg at h
  split_ifs at h with hn
  cases h
  exact packXYN_eq_of_fields hop hn

theorem encode_of_decodeSneReg {w : Word} {i : Instr} (hop : fieldOp w = 0x9) (h : decodeSneReg w = some i) :
    encode i = w := by
  unfold decodeSneReg at h
  split_ifs at h with hn
  cases h
  exact packXYN_eq_of_fields hop hn

theorem encode_of_decodeArith {w : Word} {i : Instr} (hop : fieldOp w = 0x8) (h : decodeArith w = some i) :
    encode i = w := by
  unfold decodeArith at h
  split_ifs at h <;> cases h <;> exact packXYN_eq_of_fields hop ‹_›

theorem encode_of_decodeKeySkip {w : Word} {i : Instr} (hop : fieldOp w = 0xE) (h : decodeKeySkip w = some i) :
    encode i = w := by
  unfold decodeKeySkip at h
  split_ifs at h <;> cases h <;> exact packXNN_eq_of_fields hop ‹_›

theorem encode_of_decodeMisc {w : Word} {i : Instr} (hop : fieldOp w = 0xF) (h : decodeMisc w = some i) :
    encode i = w := by
  unfold decodeMisc at h
  split_ifs at h <;> cases h <;> exact packXNN_eq_of_fields hop ‹_›

/-- Settles O2, by the leading nibble: where it leaves no sub-opcode the fields are the operands, and elsewhere the
sub-decoder has tested the remaining bits. -/
theorem decodedWordsEncodeToThemselves : Obligations.DecodedWordsEncodeToThemselves := by
  intro w i h
  have hop : ∀ {k : Nat}, (fieldOp w).toNat = k → fieldOp w = BitVec.ofNat 4 k := fun hk => by
    rw [← hk, BitVec.ofNat_toNat, BitVec.setWidth_eq]
  unfold decodeWord at h
  split at h
  case h_1 => exact encode_of_decodeFixed h
  case h_6 hk => exact encode_of_decodeSeReg (hop hk) h
  case h_9 hk => exact encode_of_decodeArith (hop hk) h
  case h_10 hk => exact encode_of_decodeSneReg (hop hk) h
  case h_15 hk => exact encode_of_decodeKeySkip (hop hk) h
  case h_16 hk => exact encode_of_decodeMisc (hop hk) h
  case h_17 => cases h
  case h_14 hk => cases h; exact packXYN_eq_of_fields (hop hk) rfl
  case h_2 hk | h_3 hk | h_11 hk | h_12 hk => cases h; exact packNNN_eq_of_fields (hop hk)
  case h_4 hk | h_5 hk | h_7 hk | h_8 hk | h_13 hk => cases h; exact packXNN_eq_of_fields (hop hk) rfl

theorem decodeWord_eq_some_iff (w : Word) (i : Instr) : decodeWord w = some i ↔ encode i = w :=
  ⟨decodedWordsEncodeToThemselves w i, fun h => h ▸ encodedInstructionsDecodeToThemselves i⟩

/-! ### The rows of the opcode map -/

/-- A field that the mask of a row covers is the row's own in every word it admits (R94). -/
theorem field_of_admits {mask bits w : Word} (h : (Row.mk mask bits).admits w = true) {lo len : Nat}
    (hmask : mask.extractLsb' lo len = BitVec.allOnes len) : w.extractLsb' lo len = bits.extractLsb' lo len := by
  have hbits : w &&& mask = bits := by simpa [Row.admits] using h
  rw [← hbits, BitVec.extractLsb'_and, hmask, BitVec.and_allOnes]

theorem eq_of_admits_fixed {bits w : Word} (h : (Row.mk 0xFFFF bits).admits w = true) : bits = w := by
  have hbits : w &&& BitVec.allOnes 16 = bits := by simpa [Row.admits] using h
  rw [← hbits, BitVec.and_allOnes]

theorem packNNN_of_admits {bits w : Word} {op : Nibble} (h : (Row.mk 0xF000 bits).admits w = true)
    (hop : fieldOp bits = op := by decide) : packNNN op (fieldNNN w) = w :=
  packNNN_eq_of_fields ((field_of_admits h (by decide)).trans hop)

theorem packXNN_of_admits {bits w : Word} {op : Nibble} (h : (Row.mk 0xF000 bits).admits w = true)
    (hop : fieldOp bits = op := by decide) : packXNN op (fieldX w) (fieldNN w) = w :=
  packXNN_eq_of_fields ((field_of_admits h (by decide)).trans hop) rfl

theorem packXYN_of_admits {bits w : Word} {op : Nibble} (h : (Row.mk 0xF000 bits).admits w = true)
    (hop : fieldOp bits = op := by decide) : packXYN op (fieldX w) (fieldY w) (fieldN w) = w :=
  packXYN_eq_of_fields ((field_of_admits h (by decide)).trans hop) rfl

theorem packX_of_admits {bits w : Word} {op : Nibble} {sub : Byte} (h : (Row.mk 0xF0FF bits).admits w = true)
    (hop : fieldOp bits = op := by decide) (hsub : fieldNN bits = sub := by decide) :
    packXNN op (fieldX w) sub = w :=
  packXNN_eq_of_fields ((field_of_admits h (by decide)).trans hop) ((field_of_admits h (by decide)).trans hsub)

theorem packXY_of_admits {bits w : Word} {op sub : Nibble} (h : (Row.mk 0xF00F bits).admits w = true)
    (hop : fieldOp bits = op := by decide) (hsub : fieldN bits = sub := by decide) :
    packXYN op (fieldX w) (fieldY w) sub = w :=
  packXYN_eq_of_fields ((field_of_admits h (by decide)).trans hop) ((field_of_admits h (by decide)).trans hsub)

/-- A word that a row of the first half of the map admits is the word of an instruction of that row. -/
theorem exists_encode_of_admits_low (w : Word) :
    ∀ r ∈ opcodeTableLow, r.admits w = true → ∃ i : Instr, i.row = r ∧ encode i = w := by
  simp only [opcodeTableLow, List.forall_mem_cons]
  exact ⟨fun h => ⟨.cls, rfl, eq_of_admits_fixed h⟩,
    fun h => ⟨.ret, rfl, eq_of_admits_fixed h⟩,
    fun h => ⟨.jp _, rfl, packNNN_of_admits h⟩,
    fun h => ⟨.call _, rfl, packNNN_of_admits h⟩,
    fun h => ⟨.seImm _ _, rfl, packXNN_of_admits h⟩,
    fun h => ⟨.sneImm _ _, rfl, packXNN_of_admits h⟩,
    fun h => ⟨.seReg _ _, rfl, packXY_of_admits h⟩,
    fun h => ⟨.ldImm _ _, rfl, packXNN_of_admits h⟩,
    fun h => ⟨.addImm _ _, rfl, packXNN_of_admits h⟩,
    fun h => ⟨.ldReg _ _, rfl, packXY_of_admits h⟩,
    fun h => ⟨.orReg _ _, rfl, packXY_of_admits h⟩,
    fun h => ⟨.andReg _ _, rfl, packXY_of_admits h⟩,
    fun h => ⟨.xorReg _ _, rfl, packXY_of_admits h⟩,
    fun h => ⟨.addReg _ _, rfl, packXY_of_admits h⟩,
    fun h => ⟨.subReg _ _, rfl, packXY_of_admits h⟩,
    fun h => ⟨.shr _ _, rfl, packXY_of_admits h⟩, fun _ hnil => absurd hnil List.not_mem_nil⟩

/-- The same for the second half. -/
theorem exists_encode_of_admits_high (w : Word) :
    ∀ r ∈ opcodeTableHigh, r.admits w = true → ∃ i : Instr, i.row = r ∧ encode i = w := by
  simp only [opcodeTableHigh, List.forall_mem_cons]
  exact ⟨fun h => ⟨.subnReg _ _, rfl, packXY_of_admits h⟩,
    fun h => ⟨.shl _ _, rfl, packXY_of_admits h⟩,
    fun h => ⟨.sneReg _ _, rfl, packXY_of_admits h⟩,
    fun h => ⟨.ldI _, rfl, packNNN_of_admits h⟩,
    fun h => ⟨.jpV0 _, rfl, packNNN_of_admits h⟩,
    fun h => ⟨.rnd _ _, rfl, packXNN_of_admits h⟩,
    fun h => ⟨.drw _ _ _, rfl, packXYN_of_admits h⟩,
    fun h => ⟨.skp _, rfl, packX_of_admits h⟩,
    fun h => ⟨.sknp _, rfl, packX_of_admits h⟩,
    fun h => ⟨.ldFromDT _, rfl, packX_of_admits h⟩,
    fun h => ⟨.ldKey _, rfl, packX_of_admits h⟩,
    fun h => ⟨.ldDT _, rfl, packX_of_admits h⟩,
    fun h => ⟨.ldST _, rfl, packX_of_admits h⟩,
    fun h => ⟨.addI _, rfl, packX_of_admits h⟩,
    fun h => ⟨.ldB _, rfl, packX_of_admits h⟩,
    fun h => ⟨.storeRegs _, rfl, packX_of_admits h⟩,
    fun h => ⟨.loadRegs _, rfl, packX_of_admits h⟩, fun _ hnil => absurd hnil List.not_mem_nil⟩

theorem exists_encode_of_admits {r : Row} (hr : r ∈ opcodeTable) {w : Word} (h : r.admits w = true) :
    ∃ i : Instr, i.row = r ∧ encode i = w := by
  obtain hlow | hhigh := List.mem_append.mp hr
  · exact exists_encode_of_admits_low w r hlow h
  · exact exists_encode_of_admits_high w r hhigh h

/-- Every instruction's word lies in the instruction's row. -/
theorem encodesInRow (i : Instr) : Laws.EncodesInRow.Statement i := by
  cases i with
  | cls => exact Laws.EncodesInRow.cls
  | ret => exact Laws.EncodesInRow.ret
  | jp nnn => exact Laws.EncodesInRow.jp nnn
  | call nnn => exact Laws.EncodesInRow.call nnn
  | seImm x nn => exact Laws.EncodesInRow.seImm x nn
  | sneImm x nn => exact Laws.EncodesInRow.sneImm x nn
  | seReg x y => exact Laws.EncodesInRow.seReg x y
  | ldImm x nn => exact Laws.EncodesInRow.ldImm x nn
  | addImm x nn => exact Laws.EncodesInRow.addImm x nn
  | ldReg x y => exact Laws.EncodesInRow.ldReg x y
  | orReg x y => exact Laws.EncodesInRow.orReg x y
  | andReg x y => exact Laws.EncodesInRow.andReg x y
  | xorReg x y => exact Laws.EncodesInRow.xorReg x y
  | addReg x y => exact Laws.EncodesInRow.addReg x y
  | subReg x y => exact Laws.EncodesInRow.subReg x y
  | shr x y => exact Laws.EncodesInRow.shr x y
  | subnReg x y => exact Laws.EncodesInRow.subnReg x y
  | shl x y => exact Laws.EncodesInRow.shl x y
  | sneReg x y => exact Laws.EncodesInRow.sneReg x y
  | ldI nnn => exact Laws.EncodesInRow.ldI nnn
  | jpV0 nnn => exact Laws.EncodesInRow.jpV0 nnn
  | rnd x nn => exact Laws.EncodesInRow.rnd x nn
  | drw x y n => exact Laws.EncodesInRow.drw x y n
  | skp x => exact Laws.EncodesInRow.skp x
  | sknp x => exact Laws.EncodesInRow.sknp x
  | ldFromDT x => exact Laws.EncodesInRow.ldFromDT x
  | ldKey x => exact Laws.EncodesInRow.ldKey x
  | ldDT x => exact Laws.EncodesInRow.ldDT x
  | ldST x => exact Laws.EncodesInRow.ldST x
  | addI x => exact Laws.EncodesInRow.addI x
  | ldB x => exact Laws.EncodesInRow.ldB x
  | storeRegs x => exact Laws.EncodesInRow.storeRegs x
  | loadRegs x => exact Laws.EncodesInRow.loadRegs x

/-- Settles O3: a decoded word is its instruction's, which lies in the instruction's row; and a word that a row admits
is an instruction's, so it decodes. -/
theorem decoderAgreesWithTheOpcodeMap : Obligations.DecoderAgreesWithTheOpcodeMap := by
  intro w
  have hrow : ∀ i, decodeWord w = some i → i.row ∈ opcodeTable ∧ i.row.admits w = true := fun i hi =>
    (decodeWord_eq_some_iff w i).mp hi ▸ encodesInRow i
  refine ⟨hrow, fun hnone r hr => Bool.eq_false_of_not_eq_true fun hadmits => ?_, fun hall => ?_⟩
  · obtain ⟨i, -, hi⟩ := exists_encode_of_admits hr hadmits
    rw [(decodeWord_eq_some_iff w i).mpr hi] at hnone
    cases hnone
  · refine Option.eq_none_iff_forall_ne_some.mpr fun i hi => ?_
    obtain ⟨hmem, hadmits⟩ := hrow i hi
    exact Bool.false_ne_true ((hall _ hmem).symm.trans hadmits)

/-- Settles O5: the two rows are those of instructions with the same word, hence of the same instruction. -/
theorem opcodeRowsAreDisjoint : Obligations.OpcodeRowsAreDisjoint := by
  intro w r q hr hq hrw hqw
  obtain ⟨i, rfl, hi⟩ := exists_encode_of_admits hr hrw
  obtain ⟨j, rfl, hj⟩ := exists_encode_of_admits hq hqw
  rw [← decodeWord_eq_some_iff] at hi hj
  rw [Option.some_inj.mp (hi.symm.trans hj)]

/-! ### The unknown words -/

theorem fieldOp_toNat (w : Word) : (fieldOp w).toNat = w.toNat / 4096 := by
  have hlt := w.isLt
  rw [fieldOp, BitVec.extractLsb'_toNat, Nat.shiftRight_eq_div_pow]
  omega

theorem fieldN_toNat (w : Word) : (fieldN w).toNat = w.toNat % 16 := BitVec.extractLsb'_toNat ..

theorem fieldNN_toNat (w : Word) : (fieldNN w).toNat = w.toNat % 256 := BitVec.extractLsb'_toNat ..

theorem fieldN_eq_iff (w : Word) (n : Nibble) : fieldN w = n ↔ w.toNat % 16 = n.toNat := by
  rw [← BitVec.toNat_inj, fieldN_toNat]

theorem fieldNN_eq_iff (w : Word) (nn : Byte) : fieldNN w = nn ↔ w.toNat % 256 = nn.toNat := by
  rw [← BitVec.toNat_inj, fieldNN_toNat]

/-- A chain of tests finds nothing when each of them fails. -/
theorem ite_some_eq_none_iff {p : Prop} [Decidable p] {i : Instr} {o : Option Instr} :
    (if p then some i else o) = none ↔ ¬p ∧ o = none := by
  by_cases h : p <;> simp [h]

theorem decodeFixed_eq_none_iff (w : Word) : decodeFixed w = none ↔ w.toNat ≠ 0x00E0 ∧ w.toNat ≠ 0x00EE := by
  simp [decodeFixed, ite_some_eq_none_iff, BitVec.toNat_eq]

theorem decodeSeReg_eq_none_iff (w : Word) : decodeSeReg w = none ↔ w.toNat % 16 ≠ 0 := by
  simp [decodeSeReg, fieldN_eq_iff]

theorem decodeSneReg_eq_none_iff (w : Word) : decodeSneReg w = none ↔ w.toNat % 16 ≠ 0 := by
  simp [decodeSneReg, fieldN_eq_iff]

theorem decodeArith_eq_none_iff (w : Word) :
    decodeArith w = none ↔ 8 ≤ w.toNat % 16 ∧ w.toNat % 16 ≤ 0xD ∨ w.toNat % 16 = 0xF := by
  simp only [decodeArith, ite_some_eq_none_iff, fieldN_eq_iff, BitVec.reduceToNat, and_true]
  omega

theorem decodeKeySkip_eq_none_iff (w : Word) : decodeKeySkip w = none ↔ w.toNat % 256 ∉ [0x9E, 0xA1] := by
  simp [decodeKeySkip, ite_some_eq_none_iff, fieldNN_eq_iff]

theorem decodeMisc_eq_none_iff (w : Word) :
    decodeMisc w = none ↔ w.toNat % 256 ∉ [0x07, 0x0A, 0x15, 0x18, 0x1E, 0x33, 0x55, 0x65] := by
  simp [decodeMisc, ite_some_eq_none_iff, fieldNN_eq_iff]

/-- Settles O4, by the leading nibble: six of its values leave a sub-decoder to answer, and with the others every
word is an instruction. -/
theorem unknownWordsAreTheListedOnes : Obligations.UnknownWordsAreTheListedOnes := by
  intro w
  rw [← fieldOp_toNat]
  unfold decodeWord
  split
  case h_1 hk => simp [hk, decodeFixed_eq_none_iff]
  case h_6 hk => simp [hk, decodeSeReg_eq_none_iff]
  case h_9 hk => simp [hk, decodeArith_eq_none_iff]
  case h_10 hk => simp [hk, decodeSneReg_eq_none_iff]
  case h_15 hk => simp [hk, decodeKeySkip_eq_none_iff]
  case h_16 hk => simp [hk, decodeMisc_eq_none_iff]
  case h_17 =>
    have hlt := (fieldOp w).isLt
    simp only [imp_false] at *
    omega
  case h_2 hk | h_3 hk | h_4 hk | h_5 hk | h_7 hk | h_8 hk | h_11 hk | h_12 hk | h_13 hk | h_14 hk => simp [hk]

/-- Settles O6: each of the fourteen words is a closed run of the decoder. -/
theorem specWordsDecodeToTheirInstructions : Obligations.SpecWordsDecodeToTheirInstructions := by
  unfold Obligations.SpecWordsDecodeToTheirInstructions
  decide

end Sys2Proof
end

section
/-!
PROOFS. Every instruction in one form (40_cycle R114): the error it raises, if any, and else the state it writes and the
`PC` it completes at; and, read off that form, O22 to O29 except O23.
-/

namespace Sys2Proof.Machine

/-! ### The two endings of an instruction -/

/-- The fatal error an instruction raises in a state, if it raises one (R200 to R203). -/
def State.errorOf (s : State) : Instr → Option FatalError
  | .ret => if s.sp.val = 0 then some .stackUnderflow else none
  | .call _ => if s.sp.val = 16 then some .stackOverflow else none
  | .drw _ _ n => if n.toNat = 0 ∨ s.i.toNat + n.toNat - 1 ≤ 4095 then none else some .outOfBoundsAccess
  | .ldB _ => if s.i.toNat + 2 ≤ 4095 then none else some .outOfBoundsAccess
  | .storeRegs x => if s.i.toNat + x.toNat ≤ 4095 then none else some .outOfBoundsAccess
  | .loadRegs x => if s.i.toNat + x.toNat ≤ 4095 then none else some .outOfBoundsAccess
  | _ => none

/-- The registers after a load of `V[0..x]` from `I` (R193). It stays folded: another field of the state after a load
is then seen to be unchanged without the sixteen registers being computed. -/
@[irreducible] def State.loadedRegs (s : State) (x : Nibble) : Vector Byte 16 :=
  (s.setRegsTo x fun k => s.mem.read (s.i.toNat + k)).v

/-- What an instruction that completes has written, `PC` and `DIAG` left aside. -/
def State.written (s : State) : Instr → State
  | .cls => { s with fb := Display.clear }
  | .ret => { s with sp := Fin.ofNat 17 (s.sp.val - 1) }
  | .call _ => { s with
      stk := s.stk.setIfInBounds s.sp.val (s.pc + 2)
      sp := Fin.ofNat 17 (s.sp.val + 1) }
  | .jp _ | .jpV0 _ | .seImm _ _ | .sneImm _ _ | .seReg _ _ | .sneReg _ _ | .skp _ | .sknp _ => s
  | .ldImm x nn => s.setV x nn
  | .addImm x nn => s.setV x (s.getV x + nn)
  | .ldReg x y => s.setV x (s.getV y)
  | .orReg x y => s.setV x (s.getV x ||| s.getV y)
  | .andReg x y => s.setV x (s.getV x &&& s.getV y)
  | .xorReg x y => s.setV x (s.getV x ^^^ s.getV y)
  | .addReg x y => s.setResultFlag x (s.getV x + s.getV y) (carryOut (s.getV x) (s.getV y))
  | .subReg x y => s.setResultFlag x (s.getV x - s.getV y) (noBorrow (s.getV x) (s.getV y))
  | .shr x _ => s.setResultFlag x (s.getV x >>> 1) (lowBit (s.getV x))
  | .subnReg x y => s.setResultFlag x (s.getV y - s.getV x) (noBorrow (s.getV y) (s.getV x))
  | .shl x _ => s.setResultFlag x (s.getV x <<< 1) (highBit (s.getV x))
  | .ldI nnn => { s with i := zextAddr nnn }
  | .rnd x nn => s.setV x (s.host.rnd &&& nn)
  | .drw x y n => State.setFlag { s with fb := (s.drawn x y n).1 } (s.drawn x y n).2
  | .ldFromDT x => s.setV x s.dt
  | .ldKey x => { s with wreg := x, kprev := s.host.keys, run := .waitingForKey }
  | .ldDT x => { s with dt := s.getV x }
  | .ldST x => { s with st := s.getV x }
  | .addI x => { s with i := s.i + zextByte (s.getV x) }
  | .ldB x => { s with mem := s.mem.writeList s.i.toNat (bcdDigits (s.getV x)) }
  | .storeRegs x => { s with mem := s.mem.writeList s.i.toNat (s.regsTo x) }
  | .loadRegs x => { s with v := s.loadedRegs x }

/-- The meaning of an instruction in one form. -/
theorem exec_eq (i : Instr) (s : State) :
    exec i s = (s.errorOf i).elim ((s.written i).completeAt (nextPc i s)) s.raise := by
  cases i with
  | ret =>
    rw [State.errorOf]
    split_ifs with hzero
    · exact exec_ret_of_sp_zero hzero
    · have hpos : 0 < s.sp.val := Nat.pos_of_ne_zero hzero
      have hsp : Fin.ofNat 17 (s.sp.val - 1) = ⟨s.sp.val - 1, by omega⟩ := Fin.ext (Nat.mod_eq_of_lt (by omega))
      rw [exec_ret_of_sp_pos hpos, State.written, nextPc, dif_pos hpos, hsp]
      rfl
  | call nnn =>
    rw [State.errorOf]
    split_ifs with hfull
    · exact exec_call_of_sp_full nnn hfull
    · have hlt : s.sp.val < 16 := by omega
      have hsp : Fin.ofNat 17 (s.sp.val + 1) = ⟨s.sp.val + 1, by omega⟩ := Fin.ext (Nat.mod_eq_of_lt (by omega))
      have hstk : s.stk.setIfInBounds s.sp.val (s.pc + 2) = s.stk.set s.sp.val (s.pc + 2) hlt :=
        Vector.ext fun k hk => by rw [Vector.getElem_setIfInBounds, Vector.getElem_set]
      rw [exec_call_of_sp_lt nnn hlt, State.written, hsp, hstk]
      rfl
  | drw x y n =>
    rw [State.errorOf]
    split_ifs with hin
    · exact exec_drw_of_inRange x y hin
    · exact exec_drw_of_outOfRange x y (by omega) (by omega)
  | ldB x => rw [exec_ldB, State.errorOf]; split_ifs <;> rfl
  | storeRegs x => rw [exec_storeRegs, State.errorOf]; split_ifs <;> rfl
  | loadRegs x => rw [exec_loadRegs, State.errorOf, State.written, State.loadedRegs]; split_ifs <;> rfl
  | seImm | seReg => simp [exec, execSeImm, execSeReg, State.skipIf, State.errorOf, State.written, nextPc]
  | sneImm | sneReg => simp [exec, execSneImm, execSneReg, State.skipIf, State.errorOf, State.written, nextPc]
  | sknp x => exact s.skipIf_not (s.keyHeld x)
  | _ => rfl

theorem exec_of_errorOf_some {s : State} {i : Instr} {e : FatalError} (h : s.errorOf i = some e) :
    exec i s = s.raise e := by
  rw [exec_eq, h, Option.elim_some]

theorem exec_of_errorOf_none {s : State} {i : Instr} (h : s.errorOf i = none) :
    exec i s = (s.written i).completeAt (nextPc i s) := by
  rw [exec_eq, h, Option.elim_none]

/-- All an instruction can do: raise its error, or complete with what it writes and the `PC` of R26. -/
theorem exec_next_cases {i : Instr} {s t : State} (h : exec i s = .next t) :
    (∃ e, s.errorOf i = some e ∧ t = { s with run := .halted, diag := e.report }) ∨
      (s.errorOf i = none ∧ t = { s.written i with pc := nextPc i s, diag := .none }) := by
  cases herr : s.errorOf i with
  | some e => exact .inl ⟨e, rfl, State.raise_next ((exec_of_errorOf_some herr).symm.trans h)⟩
  | none => exact .inr ⟨rfl, State.completeAt_next ((exec_of_errorOf_none herr).symm.trans h)⟩

theorem exists_exec_eq_next (i : Instr) (s : State) : ∃ t, exec i s = .next t := by
  cases herr : s.errorOf i with
  | some e => exact ⟨_, exec_of_errorOf_some herr⟩
  | none => exact ⟨_, exec_of_errorOf_none herr⟩

theorem FatalError.report_ne_none (e : FatalError) : e.report ≠ .none := by
  cases e <;> decide

theorem errorOf_eq_none_of_diag_none {i : Instr} {s t : State} (h : exec i s = .next t) (hdiag : t.diag = .none) :
    s.errorOf i = none ∧ t = { s.written i with pc := nextPc i s, diag := .none } := by
  obtain ⟨e, -, rfl⟩ | hdone := exec_next_cases h
  · exact absurd hdiag e.report_ne_none
  · exact hdone

/-! ### What each instruction leaves as it was -/

theorem written_v {i : Instr} (s : State) (hldImm : ∀ x nn, i ≠ .ldImm x nn) (haddImm : ∀ x nn, i ≠ .addImm x nn)
    (hldReg : ∀ x y, i ≠ .ldReg x y) (horReg : ∀ x y, i ≠ .orReg x y) (handReg : ∀ x y, i ≠ .andReg x y)
    (hxorReg : ∀ x y, i ≠ .xorReg x y) (haddReg : ∀ x y, i ≠ .addReg x y) (hsubReg : ∀ x y, i ≠ .subReg x y)
    (hshr : ∀ x y, i ≠ .shr x y) (hsubnReg : ∀ x y, i ≠ .subnReg x y) (hshl : ∀ x y, i ≠ .shl x y)
    (hrnd : ∀ x nn, i ≠ .rnd x nn) (hdrw : ∀ x y n, i ≠ .drw x y n) (hldFromDT : ∀ x, i ≠ .ldFromDT x)
    (hloadRegs : ∀ x, i ≠ .loadRegs x) : (s.written i).v = s.v := by
  cases i with
  | ldImm x nn => exact absurd rfl (hldImm x nn)
  | addImm x nn => exact absurd rfl (haddImm x nn)
  | ldReg x y => exact absurd rfl (hldReg x y)
  | orReg x y => exact absurd rfl (horReg x y)
  | andReg x y => exact absurd rfl (handReg x y)
  | xorReg x y => exact absurd rfl (hxorReg x y)
  | addReg x y => exact absurd rfl (haddReg x y)
  | subReg x y => exact absurd rfl (hsubReg x y)
  | shr x y => exact absurd rfl (hshr x y)
  | subnReg x y => exact absurd rfl (hsubnReg x y)
  | shl x y => exact absurd rfl (hshl x y)
  | rnd x nn => exact absurd rfl (hrnd x nn)
  | drw x y n => exact absurd rfl (hdrw x y n)
  | ldFromDT x => exact absurd rfl (hldFromDT x)
  | loadRegs x => exact absurd rfl (hloadRegs x)
  | _ => rfl

theorem written_i {i : Instr} (s : State) (hld : ∀ nnn, i ≠ .ldI nnn) (hadd : ∀ x, i ≠ .addI x) :
    (s.written i).i = s.i := by
  cases i with
  | ldI nnn => exact absurd rfl (hld nnn)
  | addI x => exact absurd rfl (hadd x)
  | _ => rfl

theorem written_mem {i : Instr} (s : State) (hldB : ∀ x, i ≠ .ldB x) (hstore : ∀ x, i ≠ .storeRegs x) :
    (s.written i).mem = s.mem := by
  cases i with
  | ldB x => exact absurd rfl (hldB x)
  | storeRegs x => exact absurd rfl (hstore x)
  | _ => rfl

theorem written_fb {i : Instr} (s : State) (hcls : i ≠ .cls) (hdrw : ∀ x y n, i ≠ .drw x y n) :
    (s.written i).fb = s.fb := by
  cases i with
  | cls => exact absurd rfl hcls
  | drw x y n => exact absurd rfl (hdrw x y n)
  | _ => rfl

theorem written_sp {i : Instr} (s : State) (hret : i ≠ .ret) (hcall : ∀ nnn, i ≠ .call nnn) :
    (s.written i).sp = s.sp := by
  cases i with
  | ret => exact absurd rfl hret
  | call nnn => exact absurd rfl (hcall nnn)
  | _ => rfl

theorem written_stk {i : Instr} (s : State) (hcall : ∀ nnn, i ≠ .call nnn) : (s.written i).stk = s.stk := by
  cases i with
  | call nnn => exact absurd rfl (hcall nnn)
  | _ => rfl

theorem written_dt {i : Instr} (s : State) (hldDT : ∀ x, i ≠ .ldDT x) : (s.written i).dt = s.dt := by
  cases i with
  | ldDT x => exact absurd rfl (hldDT x)
  | _ => rfl

theorem written_st {i : Instr} (s : State) (hldST : ∀ x, i ≠ .ldST x) : (s.written i).st = s.st := by
  cases i with
  | ldST x => exact absurd rfl (hldST x)
  | _ => rfl

theorem written_wreg_kprev {i : Instr} (s : State) (hldKey : ∀ x, i ≠ .ldKey x) :
    (s.written i).wreg = s.wreg ∧ (s.written i).kprev = s.kprev := by
  cases i with
  | ldKey x => exact absurd rfl (hldKey x)
  | _ => exact ⟨rfl, rfl⟩

theorem written_run {i : Instr} (s : State) (hldKey : ∀ x, i ≠ .ldKey x) : (s.written i).run = s.run := by
  cases i with
  | ldKey x => exact absurd rfl (hldKey x)
  | _ => rfl

theorem written_host (i : Instr) (s : State) : (s.written i).host = s.host := by
  cases i <;> rfl

/-! ### The obligations on every instruction -/

/-- Settles O24: what completes leaves `RUN` as it was or starts a wait, and only the six raise an error. -/
theorem onlySixInstructionsCanHalt : Obligations.OnlySixInstructionsCanHalt := by
  intro i s t h hrun hhalt
  obtain ⟨e, herr, -⟩ | ⟨-, rfl⟩ := exec_next_cases h
  · cases i with
    | ret => exact .inl rfl
    | call nnn => exact .inr (.inl ⟨nnn, rfl⟩)
    | drw x y n => exact .inr (.inr (.inl ⟨x, y, n, rfl⟩))
    | ldB x => exact .inr (.inr (.inr (.inl ⟨x, rfl⟩)))
    | storeRegs x => exact .inr (.inr (.inr (.inr (.inl ⟨x, rfl⟩))))
    | loadRegs x => exact .inr (.inr (.inr (.inr (.inr ⟨x, rfl⟩))))
    | _ => cases herr
  · cases i with
    | ldKey x => cases hhalt
    | _ => exact absurd hhalt hrun

/-- Settles O25: an instruction that raises changes `RUN` and `DIAG`, and one that completes goes to the `PC` of R26. -/
theorem instructionsCompleteOrRaise : Obligations.InstructionsCompleteOrRaise := by
  intro i s t h
  obtain ⟨e, -, rfl⟩ | ⟨-, rfl⟩ := exec_next_cases h
  · exact ⟨fun hnone => absurd hnone e.report_ne_none, fun _ => ⟨e.report_fatal, rfl⟩⟩
  · exact ⟨fun _ => rfl, fun hne => absurd rfl hne⟩

/-- Settles O26: an instruction that raises writes `RUN` and `DIAG` alone, and of one that completes each piece is a
lemma on what it has written. -/
theorem eachPieceOfStateHasItsOwnWriters : Obligations.EachPieceOfStateHasItsOwnWriters := by
  intro i s t h
  obtain ⟨e, -, rfl⟩ | ⟨-, rfl⟩ := exec_next_cases h
  · exact ⟨by intros; rfl, by intros; rfl, by intros; rfl, by intros; rfl, by intros; rfl, by intros; rfl,
      by intros; rfl, by intros; rfl, fun _ => ⟨rfl, rfl⟩, fun _ hnone => absurd hnone e.report_ne_none, fun _ => rfl, rfl⟩
  · exact ⟨written_v s, written_i s, written_mem s, written_fb s, written_sp s, written_stk s, written_dt s,
      written_st s, written_wreg_kprev s, fun hldKey _ => written_run s hldKey, fun hne => absurd rfl hne, written_host i s⟩

/-- The six instructions that write `VF` as a flag leave a flag byte there, with `x = 15` too (R22, D9). -/
theorem getV_written_flag {i : Instr} {x y n : Nibble} (s : State)
    (hi : i ∈ [.addReg x y, .subReg x y, .subnReg x y, .shr x y, .shl x y, .drw x y n]) :
    ∃ f, (s.written i).getV 15 = flagByte f := by
  simp only [List.mem_cons, List.not_mem_nil, or_false] at hi
  obtain rfl | rfl | rfl | rfl | rfl | rfl := hi
  case inr.inr.inr.inr.inr => exact ⟨_, (State.getV_setFlag ..).trans (if_pos rfl)⟩
  all_goals exact ⟨_, (State.getV_setResultFlag ..).trans (if_pos rfl)⟩

/-- Settles O27: a flag byte is 0 or 1. -/
theorem flagsAreZeroOrOne : Obligations.FlagsAreZeroOrOne := by
  intro x y n i s t hi h hdiag
  obtain ⟨-, rfl⟩ := errorOf_eq_none_of_diag_none h hdiag
  obtain ⟨f, hf⟩ := getV_written_flag s hi
  have hv : State.getV { s.written i with pc := nextPc i s, diag := .none } 15 = flagByte f := hf
  rw [hv]
  exact flagByte_eq f

/-! ### The inputs of the event -/

/-- No error depends on the samples. -/
theorem errorOf_sample (i : Instr) (s : State) (keys : Word) (rnd : Byte) :
    (s.sample keys rnd).errorOf i = s.errorOf i := by
  cases i <;> rfl

theorem written_loadRegs_sample (x : Nibble) (s : State) (keys : Word) (rnd : Byte) :
    (s.sample keys rnd).written (.loadRegs x) = (s.written (.loadRegs x)).sample keys rnd := by
  simp only [State.written, State.loadedRegs]
  rfl

/-- An instruction whose writes and new `PC` do not depend on the samples runs alike on every sample. -/
theorem exec_sample {i : Instr} {s t : State} {keys : Word} {rnd : Byte} (h : exec i s = .next t)
    (hwritten : (s.sample keys rnd).written i = (s.written i).sample keys rnd)
    (hpc : nextPc i (s.sample keys rnd) = nextPc i s) :
    exec i (s.sample keys rnd) = .next (t.sample keys rnd) := by
  obtain ⟨e, herr, rfl⟩ | ⟨herr, rfl⟩ := exec_next_cases h
  · rw [exec_of_errorOf_some ((errorOf_sample i s keys rnd).trans herr)]
    rfl
  · rw [exec_of_errorOf_none ((errorOf_sample i s keys rnd).trans herr), hwritten, hpc]
    rfl

/-- Settles O28: the keys are read by the condition of a key skip and written by LD Vx,K. -/
theorem keysReachOnlyTheKeyInstructions : Obligations.KeysReachOnlyTheKeyInstructions := by
  intro i s t keys hskp hsknp hldKey h
  refine exec_sample h ?_ ?_
  · cases i with
    | ldKey x => exact absurd rfl (hldKey x)
    | loadRegs x => exact written_loadRegs_sample ..
    | _ => rfl
  · cases i with
    | skp x => exact absurd rfl (hskp x)
    | sknp x => exact absurd rfl (hsknp x)
    | _ => rfl

/-- Settles O29: the random byte is read by what RND writes. -/
theorem randomByteReachesOnlyRnd : Obligations.RandomByteReachesOnlyRnd := by
  intro i s t rnd hrnd h
  refine exec_sample h ?_ ?_
  · cases i with
    | rnd x nn => exact absurd rfl (hrnd x nn)
    | loadRegs x => exact written_loadRegs_sample ..
    | _ => rfl
  · cases i <;> rfl

end Sys2Proof.Machine
end

section
/-!
PROOFS. What every event keeps (10_state R50): the invariant through each piece of a step, that a step always answers
a next state, that only Reset leaves HALTED, and O20 to O23.
-/

namespace Sys2Proof.Machine

/-! ### The parts of the invariant through a completing instruction -/

/-- The new `PC` is in range when a fetch could start at the old one: a jump goes to at most 4095, `V0 + nnn` to at
most 4350, a return to an entry in use (R27). -/
theorem nextPc_le {s : State} (i : Instr) (hpc : s.pc.toNat ≤ 4094) (hstk : s.stackBounded) :
    (nextPc i s).toNat ≤ 4350 := by
  have hnext : (s.pc + 2).toNat ≤ 4350 := by bv_omega
  have hskip : (s.pc + 4).toNat ≤ 4350 := by bv_omega
  cases i with
  | ret =>
    rw [nextPc]
    split
    next hpos =>
      have hentry := (hstk ⟨s.sp.val - 1, by omega⟩ (Nat.sub_lt hpos Nat.one_pos)).2
      exact hentry.trans (by decide)
    next => omega
  | jp nnn | call nnn =>
    have hnnn := zextAddr_toNat nnn
    exact hnnn.trans_le (by omega)
  | jpV0 nnn =>
    have hsum := zextByte_add_zextAddr_toNat (s.getV 0) nnn
    exact hsum.trans_le (by omega)
  | seImm | sneImm | seReg | sneReg | skp | sknp =>
    rw [nextPc]
    split <;> assumption
  | _ => exact hnext

theorem written_mem_wf {s : State} {i : Instr} (hmem : s.mem.wf) (herr : s.errorOf i = none) :
    (s.written i).mem.wf := by
  cases i with
  | ldB x =>
    have hin : s.i.toNat + 2 ≤ 4095 := by simpa [State.errorOf] using herr
    exact Memory.writeList_wf hmem (.inr (by rw [bcdDigits_length, Config.memSize]; omega))
  | storeRegs x =>
    have hin : s.i.toNat + x.toNat ≤ 4095 := by simpa [State.errorOf] using herr
    exact Memory.writeList_wf hmem (.inr (by rw [State.regsTo_length, Config.memSize]; omega))
  | _ => exact hmem

/-- CALL adds one entry, between 2 and 4096 as its fetch was in range, and RET takes one away. -/
theorem written_stackBounded {s : State} (i : Instr) (hpc : s.pc.toNat ≤ 4094) (hstk : s.stackBounded) :
    (s.written i).stackBounded := by
  cases i with
  | call nnn =>
    intro k hk
    have hlt : k.val < s.sp.val + 1 := Nat.lt_of_lt_of_le hk (Nat.mod_le _ _)
    have hstored := Vector.getElem_setIfInBounds (xs := s.stk) (i := s.sp.val) (x := s.pc + 2) k.isLt
    simp only [State.written, hstored]
    split
    · bv_omega
    · exact hstk k (by omega)
  | ret =>
    intro k hk
    have hlt : k.val < s.sp.val - 1 := Nat.lt_of_lt_of_le hk (Nat.mod_le _ _)
    exact hstk k (by omega)
  | _ => exact hstk

/-- An instruction that completes does not halt the core (R114). -/
theorem written_run_ne_halted {s : State} (i : Instr) (hrun : s.run ≠ .halted) : (s.written i).run ≠ .halted := by
  cases i with
  | ldKey x => exact RunState.noConfusion
  | _ => exact hrun

/-! ### The invariant through the pieces of a step -/

theorem State.Inv.raise {s : State} (h : s.Inv) (e : FatalError) :
    State.Inv { s with run := .halted, diag := e.report } := by
  obtain ⟨hmem, hpc, -, hstk⟩ := h
  exact ⟨hmem, hpc, iff_of_true rfl e.report_fatal, hstk⟩

theorem State.Inv.exec {s t : State} {i : Instr} (h : s.Inv) (hrun : s.run = .ready) (hpc : s.pc.toNat ≤ 4094)
    (hexec : exec i s = .next t) : t.Inv := by
  obtain ⟨e, -, rfl⟩ | ⟨herr, rfl⟩ := exec_next_cases hexec
  · exact h.raise e
  · obtain ⟨hmem, -, -, hstk⟩ := h
    have hnotHalted := written_run_ne_halted i (s := s) (by rw [hrun]; decide)
    exact ⟨written_mem_wf hmem herr, nextPc_le i hpc hstk, iff_of_false hnotHalted Bool.false_ne_true,
      written_stackBounded i hpc hstk⟩

theorem State.Inv.readyStep {s t : State} (h : s.Inv) (hrun : s.run = .ready) (hstep : s.readyStep = .next t) :
    t.Inv := by
  obtain ⟨-, hraise⟩ | ⟨hpc, -, hskip⟩ | ⟨hpc, i, -, hexec⟩ := s.readyStep_cases
  · obtain rfl := State.raise_next (hraise.symm.trans hstep)
    exact h.raise _
  · rw [hskip] at hstep
    cases hstep
    obtain ⟨hmem, -, -, hstk⟩ := h
    have hpc' : (s.pc + 2).toNat ≤ 4350 := by bv_omega
    exact ⟨hmem, hpc', iff_of_false (by rw [hrun]; decide) Bool.false_ne_true, hstk⟩
  · exact h.exec hrun hpc (hexec.symm.trans hstep)

/-- The two outcomes of a waiting cycle: the wait ends with a register written, or it goes on (R183). -/
theorem State.waitStep_cases (s : State) :
    (∃ k, s.waitStep =
      { s.setV s.wreg (BitVec.ofNat 8 k) with run := .ready, diag := .none, kprev := s.host.keys }) ∨
    s.waitStep = { s with diag := .noProgress, kprev := s.host.keys } := by
  unfold State.waitStep
  split
  · exact .inl ⟨_, rfl⟩
  · exact .inr rfl

theorem State.Inv.waitStep {s : State} (h : s.Inv) (hrun : s.run = .waitingForKey) : s.waitStep.Inv := by
  obtain ⟨hmem, hpc, -, hstk⟩ := h
  obtain ⟨k, hwait⟩ | hwait := s.waitStep_cases <;> rw [hwait]
  · exact ⟨hmem, hpc, iff_of_false RunState.noConfusion Bool.false_ne_true, hstk⟩
  · exact ⟨hmem, hpc, iff_of_false (by rw [hrun]; decide) Bool.false_ne_true, hstk⟩

theorem State.Inv.cycleEvent {s t : State} (h : s.Inv) (hcycle : s.cycleEvent = .next t) : t.Inv := by
  cases hrun : s.run with
  | ready => exact h.readyStep hrun ((State.cycleEvent_of_ready hrun).symm.trans hcycle)
  | waitingForKey =>
    cases (State.cycleEvent_of_waitingForKey hrun).symm.trans hcycle
    exact h.waitStep hrun
  | halted =>
    cases (State.cycleEvent_of_halted hrun).symm.trans hcycle
    exact h

theorem State.Inv.resetEvent {s : State} (h : s.Inv) : s.resetEvent.Inv := by
  obtain ⟨hmem, -, -, -⟩ := h
  have hpc : (512 : Word).toNat ≤ 4350 := by decide
  exact ⟨hmem, hpc, iff_of_false RunState.noConfusion Bool.false_ne_true, fun k hk => absurd hk k.val.not_lt_zero⟩

theorem State.Inv.loadEvent {s : State} (h : s.Inv) (bytes : List Byte) : (s.loadEvent bytes).Inv := by
  obtain ⟨hmem, hrest⟩ := h
  obtain ⟨hfits, hload⟩ | ⟨-, hload⟩ := s.loadEvent_eq bytes <;> rw [hload]
  · exact ⟨Memory.writeList_wf hmem (.inr (by rw [Config.memSize]; omega)), hrest⟩
  · exact ⟨hmem, hrest⟩

theorem State.Inv.takeEvent {s : State} (h : s.Inv) : s.takeEvent.Inv := by
  rw [State.takeEvent_eq]
  exact h

/-! ### The obligations -/

/-- Settles O20, at the one state `State.reset`: it lists no byte and uses no stack entry. -/
theorem resetStateSatisfiesTheInvariant : Obligations.ResetStateSatisfiesTheInvariant := by
  have hpc : (512 : Word).toNat ≤ 4350 := by decide
  exact ⟨Memory.wf_nil, hpc, iff_of_false RunState.noConfusion Bool.false_ne_true,
    fun k hk => absurd hk k.val.not_lt_zero⟩

/-- Settles O21, by the event: Reset, Load and Tick on the state without the event, a Cycle by `RUN`. -/
theorem everyStepKeepsTheInvariant : Obligations.EveryStepKeepsTheInvariant := by
  intro s t h hstep
  cases hnext : s.nextEvent with
  | reset =>
    cases (step_of_reset hnext).symm.trans hstep
    exact h.takeEvent.resetEvent
  | load bytes =>
    cases (step_of_load hnext).symm.trans hstep
    exact h.takeEvent.loadEvent bytes
  | tick =>
    cases (step_of_tick hnext).symm.trans hstep
    exact h.takeEvent
  | cycle keys rnd =>
    have hsampled : (s.takeEvent.sample keys rnd).Inv := h.takeEvent
    exact hsampled.cycleEvent ((step_of_cycle hnext).symm.trans hstep)

theorem State.exists_cycleEvent_eq_next (s : State) : ∃ t, s.cycleEvent = .next t := by
  cases hrun : s.run with
  | ready =>
    rw [State.cycleEvent_of_ready hrun]
    obtain ⟨-, hraise⟩ | ⟨-, -, hskip⟩ | ⟨-, i, -, hexec⟩ := s.readyStep_cases
    · exact ⟨_, hraise⟩
    · exact ⟨_, hskip⟩
    · rw [hexec]
      exact exists_exec_eq_next i s
  | waitingForKey => exact ⟨_, State.cycleEvent_of_waitingForKey hrun⟩
  | halted => exact ⟨_, State.cycleEvent_of_halted hrun⟩

/-- Settles O22, by the event; the one that can end in several ways is a Cycle. -/
theorem everyStepAnswersANextState : Obligations.EveryStepAnswersANextState := by
  intro s
  cases hnext : s.nextEvent with
  | reset => exact ⟨_, step_of_reset hnext⟩
  | load bytes => exact ⟨_, step_of_load hnext⟩
  | tick => exact ⟨_, step_of_tick hnext⟩
  | cycle keys rnd =>
    rw [step_of_cycle hnext]
    exact State.exists_cycleEvent_eq_next _

/-- Settles O23: in HALTED a Cycle changes nothing, a Load memory and a Tick the timers. -/
theorem onlyResetLeavesHalted : Obligations.OnlyResetLeavesHalted := by
  intro s t hrun hreset hstep
  cases hnext : s.nextEvent with
  | reset => exact absurd hnext hreset
  | load bytes =>
    cases (step_of_load hnext).symm.trans hstep
    obtain ⟨-, hload⟩ | ⟨-, hload⟩ := s.takeEvent.loadEvent_eq bytes <;> rw [hload, State.takeEvent_eq]
  | tick =>
    cases (step_of_tick hnext).symm.trans hstep
    rw [State.tickEvent, State.takeEvent_eq]
  | cycle keys rnd =>
    have hhalted : (s.takeEvent.sample keys rnd).run = .halted := by simpa using hrun
    rw [step_of_cycle hnext, State.cycleEvent_of_halted hhalted] at hstep
    cases hstep
    rw [State.sample, State.takeEvent_eq]

end Sys2Proof.Machine
end

section
/-!
PROOFS. Schedules and outputs (10_state R34, R47; 60_exceptions section 5; 70_reset_and_hazards section 2): the step of a
READY core on a known word, two steps in a row, and O7, O9, O13, O16 to O19 and O56.
-/

namespace Sys2Proof.Machine

/-! ### The step of a READY core on a known word -/

/-- What the decoder finds in a byte sequence is what it finds in the word of the first two bytes. -/
theorem instr_decodeBytes (b0 b1 : Byte) (rest : List Byte) :
    (decodeBytes (b0 :: b1 :: rest)).instr = decodeWord (wordOfBytes b0 b1) := by
  rw [decodeBytes]
  split <;> simp [Decoded.instr, *]

theorem decodeWord_tableWord (nbits w : Nat) : decodeWord (tableWord nbits w) = decodeTableWord nbits w := by
  rw [decodeTableWord, bytesOfWord, instr_decodeBytes, wordOfBytes_bytesOfWord]

theorem step_of_ready_known {s : State} {keys : Word} {rnd : Byte} {i : Instr} (hnext : s.nextEvent = .cycle keys rnd)
    (hrun : s.run = .ready) (hpc : s.pc.toNat ≤ 4094) (hdec : decodeWord s.fetchWord = some i) :
    step s = exec i (s.takeEvent.sample keys rnd) := by
  rw [step_of_cycle hnext, State.cycleEvent_of_ready (by simpa using hrun)]
  exact State.readyStep_of_decodeWord_some (by simpa using hpc) (by simpa using hdec)

/-- Settles O7, at the state with the event's inputs sampled. -/
theorem stepRunsTheDecodedInstruction : Obligations.StepRunsTheDecodedInstruction := by
  intro s keys rnd i hnext hrun hpc hbytes
  have hdec : decodeWord s.fetchWord = some i := by
    rw [State.fetchWord, ← instr_decodeBytes, hbytes, Decoded.instr]
  refine ⟨s.takeEvent.sample keys rnd, step_of_ready_known hnext hrun hpc hdec, ?_, rfl, rfl, rfl⟩
  rw [State.sample, State.takeEvent_eq]

/-! ### Placing one instruction -/

/-- The two bytes of a word in memory, and every other byte. -/
theorem Memory.read_writeList_bytesOfWord (m : Memory) (a x : Nat) (w : Word) :
    (m.writeList a (bytesOfWord w)).read x =
      if x = a then w.extractLsb' 8 8 else if x = a + 1 then w.extractLsb' 0 8 else m.read x := by
  simp only [bytesOfWord, Memory.writeList, Memory.read_write]
  by_cases hx : x = a
  · rw [if_neg (by omega), if_pos hx, if_pos hx]
  · rw [if_neg hx, if_neg hx]

theorem State.placeAddr_toNat_le (s : State) : s.placeAddr.toNat ≤ 4094 := by
  rw [State.placeAddr_eq]
  split
  · assumption
  · decide

theorem State.fetchWord_withFetchWord (s : State) (nbits w : Nat) :
    (s.withFetchWord nbits w).fetchWord = tableWord nbits w := by
  have hread := s.mem.read_writeList_bytesOfWord s.placeAddr.toNat
  refine State.fetchWord_eq_of_bytes ?_ ?_
  · exact ((hread _ _).trans (if_pos rfl)).symm
  · exact ((hread _ _).trans ((if_neg (by omega)).trans (if_pos rfl))).symm

/-- Settles O9: the placed word is the one fetched, and taking and sampling the placed event gives the bookkeeping
back. -/
theorem placedInstructionIsRunNext : Obligations.PlacedInstructionIsRunNext := by
  intro s nbits w i hdec
  obtain ⟨hnext, htake⟩ := State.nextEvent_cons (s := s.withFetchWord nbits w) rfl
  refine ⟨?_, ?_, fun a => s.mem.read_writeList_bytesOfWord s.placeAddr.toNat a (tableWord nbits w)⟩
  · have hword : decodeWord (s.withFetchWord nbits w).fetchWord = some i := by
      rw [State.fetchWord_withFetchWord, decodeWord_tableWord, hdec]
    rw [step_of_ready_known hnext rfl s.placeAddr_toNat_le hword, htake]
    rfl
  · rw [← State.placeAddr_eq]
    rfl

/-! ### Runs of several events -/

theorem core_run_two {s t u : State} (hst : step s = .next t) (htu : step t = .next u) :
    Sys2Proof.core.run 2 s = .next u := by
  rw [core_run_succ 1 hst, core_run_succ 0 htu]
  rfl

/-- Settles O13, by induction on the number of Ticks, from any state. -/
theorem ticksCountDownToZero : Obligations.TicksCountDownToZero := by
  intro n
  induction n with
  | zero =>
    intro s rest hpending
    obtain rfl : s.host.pending = rest := hpending
    exact ⟨s, rfl, rfl, rfl, rfl⟩
  | succ n ih =>
    intro s rest hpending
    rw [List.replicate_succ, List.cons_append] at hpending
    obtain ⟨hnext, htake⟩ := State.nextEvent_cons hpending
    have hstep := step_of_tick hnext
    rw [htake] at hstep
    obtain ⟨t, hrun, hframe, hdt, hst⟩ := ih
      (State.tickEvent { s with host := { s.host with pending := List.replicate n .tick ++ rest } }) rest rfl
    refine ⟨t, (core_run_succ n hstep).trans hrun, hframe, ?_, ?_⟩
    · rw [hdt, State.tickEvent_dt, timerTick_toNat, Nat.sub_sub, Nat.add_comm]
    · rw [hst, State.tickEvent_st, timerTick_toNat, Nat.sub_sub, Nat.add_comm]

/-- Settles O16, by the step of a Reset: `State.reset` holds the values that event writes. -/
theorem resetStateIsAPostResetState : Obligations.ResetStateIsAPostResetState := by
  intro s hnext
  rw [step_of_reset hnext, State.takeEvent_eq]
  rfl

theorem State.pending_takeEvent {s : State} {e : Event} {rest : List Event} (h : s.host.pending = e :: rest) :
    s.takeEvent.host.pending = rest := by
  rw [(State.nextEvent_cons h).2]

/-- Settles O17, by the two steps: the Reset leaves the Load next, and the Load fits. -/
theorem bootLoadsTheProgram : Obligations.BootLoadsTheProgram := by
  intro s bytes rest hpending hfits
  obtain ⟨hnext, -⟩ := State.nextEvent_cons hpending
  have hpending' : s.takeEvent.resetEvent.host.pending = .load bytes :: rest := State.pending_takeEvent hpending
  obtain ⟨hnext', -⟩ := State.nextEvent_cons hpending'
  have hload := step_of_load hnext'
  obtain ⟨-, hcopied⟩ | ⟨hlong, -⟩ := s.takeEvent.resetEvent.takeEvent.loadEvent_eq bytes
  · rw [hcopied] at hload
    refine ⟨_, core_run_two (step_of_reset hnext) hload, State.takeEvent_pc _, State.takeEvent_run _,
      State.takeEvent_sp _, State.pending_takeEvent hpending', Memory.read_writeList_getElem _ 512 bytes⟩
  · omega

/-- Settles O18: on an edge with both strobes the first step runs LD DT,Vx and the second counts down what it wrote. -/
theorem edgeOrdersCycleBeforeTick : Obligations.EdgeOrdersCycleBeforeTick := by
  intro e
  refine ⟨fun hrst => by rw [edgeEvents, hrst]; rfl, fun hrst hcycle htick s x rest hpending hrun hpc hdec => ?_⟩
  have hevents : edgeEvents e = [.cycle e.keys e.rnd, .tick] := by rw [edgeEvents, hrst, hcycle, htick]; rfl
  rw [hevents] at hpending
  obtain ⟨hnext, -⟩ := State.nextEvent_cons hpending
  obtain ⟨-, hldDT, -⟩ := timerTransfersMoveOneByte x (s.takeEvent.sample e.keys e.rnd)
  obtain ⟨t, hstep, hdt, hpending'⟩ : ∃ t, step s = .next t ∧ t.dt = s.getV x ∧ t.host.pending = .tick :: rest :=
    ⟨_, (step_of_ready_known hnext hrun hpc hdec).trans hldDT, s.getV_takeEvent x, State.pending_takeEvent hpending⟩
  obtain ⟨hnext', -⟩ := State.nextEvent_cons hpending'
  refine ⟨t.takeEvent.tickEvent, core_run_two hstep (step_of_tick hnext'), ?_, State.pending_takeEvent hpending'⟩
  rw [State.tickEvent_dt, timerTick_toNat, State.takeEvent_dt, hdt]

/-! ### Outputs and codes -/

/-- Settles O19: the port lists the pixels by `64 r + c`, whose quotient and remainder by 64 are `r` and `c`. -/
theorem outputsShowTheState : Obligations.OutputsShowTheState := by
  intro s
  refine ⟨by simp [State.snd, BitVec.toNat_eq], fun r c => ?_⟩
  have hlt : 64 * r.val + c.val < 2048 := by omega
  have hrow : Fin.ofNat 32 ((64 * r.val + c.val) / 64) = r := Fin.ext (by simp only [Fin.ofNat]; omega)
  have hcol : Fin.ofNat 64 (64 * r.val + c.val) = c := Fin.ext (by simp only [Fin.ofNat]; omega)
  rw [State.fbPort, BitVec.getLsbD_ofFnLE, dif_pos hlt, hrow, hcol]

theorem RunState.code_spec (r : RunState) :
    (r.code = 0 ↔ r = .ready) ∧ (r.code = 1 ↔ r = .waitingForKey) ∧ (r.code = 2 ↔ r = .halted) ∧ r.code ≠ 3 := by
  cases r <;> decide

theorem Report.code_spec (d : Report) :
    (d.code = 0 ↔ d = .none) ∧ (d.code = 1 ↔ d = .outOfBoundsAccess) ∧ (d.code = 2 ↔ d = .stackOverflow) ∧
    (d.code = 3 ↔ d = .stackUnderflow) ∧ (d.code = 4 ↔ d = .unknownInstruction) ∧ (d.code = 6 ↔ d = .noProgress) ∧
    d.code ≠ 5 ∧ d.code ≠ 7 ∧ (d.fatal = true ↔ d.code = 1 ∨ d.code = 2 ∨ d.code = 3) := by
  cases d <;> decide

/-- Settles O56: the codes value by value, and the result of a Load by its two answers. -/
theorem hostReadsTheCodes : Obligations.HostReadsTheCodes := by
  intro s
  obtain ⟨hready, hwaiting, hhalted, hrun3⟩ := s.run.code_spec
  obtain ⟨h0, h1, h2, h3, h4, h6, h5, h7, hfatal⟩ := s.diag.code_spec
  refine ⟨hready, hwaiting, hhalted, hrun3, h0, h1, h2, h3, h4, h6, h5, h7, hfatal, fun bytes hnext => ?_⟩
  have hstep := step_of_load hnext
  obtain ⟨hfits, hload⟩ | ⟨hlong, hload⟩ := s.takeEvent.loadEvent_eq bytes <;> rw [hload] at hstep
  · exact ⟨_, _, hstep, rfl, (if_pos hfits).symm, s.takeEvent_diag⟩
  · exact ⟨_, _, hstep, rfl, (if_neg (Nat.not_le_of_lt hlong)).symm, s.takeEvent_diag⟩

end Sys2Proof.Machine
end

section
/-!
PROOFS. Two instructions or two draws in a row, and memory as data: O30, O35, O46, O47, O54 and O55.
-/

namespace Sys2Proof.Machine

/-! ### Memories that read alike -/

theorem Memory.read_cons_self (k : Nat) (b : Byte) (m : Memory) : Memory.read ((k, b) :: m) k = b :=
  if_pos rfl

theorem Memory.read_cons_of_ne {k a : Nat} (h : k ≠ a) (b : Byte) (m : Memory) :
    Memory.read ((k, b) :: m) a = m.read a :=
  if_neg h

/-- The first listed byte is no unlisted one, so a memory that reads alike lists something at or below it. -/
theorem Memory.exists_mem_le_of_read_eq {k : Nat} {b : Byte} {m m' : Memory} (h : Memory.wf ((k, b) :: m))
    (hread : ∀ a, Memory.read ((k, b) :: m) a = m'.read a) : ∃ c ∈ m', c.1 ≤ k := by
  by_contra hnone
  push Not at hnone
  obtain ⟨-, ⟨-, hb⟩, -⟩ := Memory.wf_cons.mp h
  have hk := hread k
  rw [Memory.read_cons_self, Memory.read_of_lt hnone] at hk
  exact hb hk

theorem Memory.head_le_of_read_eq {k k' : Nat} {b b' : Byte} {m m' : Memory} (h : Memory.wf ((k, b) :: m))
    (h' : Memory.wf ((k', b') :: m')) (hread : ∀ a, Memory.read ((k, b) :: m) a = Memory.read ((k', b') :: m') a) :
    k' ≤ k := by
  obtain ⟨c, hc, hle⟩ := Memory.exists_mem_le_of_read_eq h hread
  obtain ⟨hlt, -, -⟩ := Memory.wf_cons.mp h'
  obtain rfl | hc := List.mem_cons.mp hc
  · exact hle
  · exact (hlt c hc).le.trans hle

/-- Settles O30, by induction on the lists: the first listed addresses agree, then their bytes, then the tails, which
read as unlisted up to there. -/
theorem equalMemoriesAreEqualData : Obligations.EqualMemoriesAreEqualData := by
  intro m
  induction m with
  | nil =>
    rintro (_ | ⟨⟨k', b'⟩, m'⟩) - h' hread
    · rfl
    · obtain ⟨c, hc, -⟩ := Memory.exists_mem_le_of_read_eq h' fun a => (hread a).symm
      exact absurd hc List.not_mem_nil
  | cons c m ih =>
    obtain ⟨k, b⟩ := c
    rintro (_ | ⟨⟨k', b'⟩, m'⟩) h h' hread
    · obtain ⟨c, hc, -⟩ := Memory.exists_mem_le_of_read_eq h hread
      exact absurd hc List.not_mem_nil
    · obtain rfl : k = k' := Nat.le_antisymm
        (Memory.head_le_of_read_eq h' h fun a => (hread a).symm) (Memory.head_le_of_read_eq h h' hread)
      obtain rfl : b = b' := by simpa only [Memory.read_cons_self] using hread k
      obtain ⟨hlt, -, hm⟩ := Memory.wf_cons.mp h
      obtain ⟨hlt', -, hm'⟩ := Memory.wf_cons.mp h'
      refine congrArg _ (ih m' hm hm' fun a => ?_)
      by_cases ha : k = a
      · subst ha
        rw [Memory.read_of_lt hlt, Memory.read_of_lt hlt']
      · simpa only [Memory.read_cons_of_ne ha] using hread a

/-! ### A CALL and a RET -/

/-- Settles O35, by the CALL that pushes and the RET that pops: RET takes the entry CALL added, which stays where it
was. -/
theorem callThenRetReturns : Obligations.CallThenRetReturns := by
  intro nnn s hlt
  obtain ⟨t, hcall, ht, -, htsp, htstk⟩ := (callPushesOrOverflows nnn s).1 hlt
  obtain ⟨u, hret, hu, husp⟩ := (retPopsOrUnderflows t).1 ⟨s.sp.val, hlt⟩ htsp
  have hdepth : u.sp = s.sp := Fin.ext husp
  have hpopped : t.stk[s.sp.val] = s.pc + 2 := (htstk ⟨s.sp.val, hlt⟩).trans (if_pos rfl)
  have hstk : u.stk = t.stk := by rw [hu]
  refine ⟨t, u, hcall, hret, ?_, fun k => by rw [hstk]; exact htstk k⟩
  calc u = { t with sp := s.sp, pc := s.pc + 2, diag := .none } := by rw [← hdepth, ← hpopped]; exact hu
    _ = { s with stk := u.stk, pc := s.pc + 2, diag := .none } := by rw [hstk, ht]

/-! ### Draws -/

/-- A DRW that completes leaves the display and the flag of `draw_sprite`, and `I` and memory alone. -/
theorem drw_next {s t : State} {x y n : Nibble} (h : exec (.drw x y n) s = .next t) (hdiag : t.diag = .none) :
    s.errorOf (.drw x y n) = none ∧ t.fb = (s.drawn x y n).1 ∧ t.getV 15 = flagByte (s.drawn x y n).2 ∧
      t.i = s.i ∧ t.mem = s.mem := by
  obtain ⟨herr, rfl⟩ := errorOf_eq_none_of_diag_none h hdiag
  exact ⟨herr, rfl, (State.getV_setFlag ..).trans (if_pos rfl), rfl, rfl⟩

theorem flagByte_eq_one_iff (f : Bool) : flagByte f = 1 ↔ f = true := by
  cases f <;> decide

/-- A sprite drawn twice at one place cancels out (43_display section 3 (a)). -/
theorem drawSprite_drawSprite (fb : Display) (x0 y0 : Byte) {rows : List Byte} (hlen : rows.length ≤ 32) :
    (drawSprite (drawSprite fb x0 y0 rows).1 x0 y0 rows).1 = fb :=
  Display.ext_pixel fun r c => by
    rw [pixel_drawSprite _ x0 y0 rows hlen, pixel_drawSprite _ x0 y0 rows hlen, Bool.xor_assoc, Bool.xor_self,
      Bool.xor_false]

/-- Settles O46: the second DRW draws the same sprite at the same place, which gives the old display back, so the
pixels it turns OFF are those the first turned ON. -/
theorem redrawingErasesTheSprite : Obligations.RedrawingErasesTheSprite := by
  intro x y n s t u hst hdiag hx hy htu
  have hlen := s.mem.readList_nibble_length_le s.i.toNat n
  obtain ⟨herr, hfb, -, hi, hmem⟩ := drw_next hst hdiag
  have hdrawn : t.drawn x y n = drawSprite t.fb (s.getV x) (s.getV y) (s.mem.readList s.i.toNat n.toNat) := by
    rw [State.drawn, hx, hy, hi, hmem]
  have herr' : t.errorOf (.drw x y n) = none := by rw [← herr, State.errorOf, hi]; rfl
  have hudiag : u.diag = .none := by
    rw [State.completeAt_next ((exec_of_errorOf_none herr').symm.trans htu)]
  obtain ⟨-, hufb, huflag, -, -⟩ := drw_next htu hudiag
  have hrestored : (drawSprite t.fb (s.getV x) (s.getV y) (s.mem.readList s.i.toNat n.toNat)).1 = s.fb := by
    rw [hfb]
    exact drawSprite_drawSprite s.fb _ _ hlen
  refine ⟨hudiag, by rw [hufb, hdrawn, hrestored], ?_⟩
  rw [huflag, flagByte_eq_one_iff, hdrawn, drawSprite_collision_iff_turnedOff _ _ _ hlen, hrestored]
  exact exists₂_congr fun r c => and_comm

/-- Rows of zeros have no bit on any pixel. -/
theorem spriteBit_eq_false_of_zero {rows : List Byte} (hzero : ∀ row ∈ rows, row = 0) (left top : Nat) (r : Fin 32)
    (c : Fin 64) : spriteBit rows left top r c = false := by
  rw [spriteBit_eq]
  by_cases hrow : rowDist top r < rows.length
  · rw [List.getD_eq_getElem _ _ hrow, hzero _ (List.getElem_mem hrow)]
    simp
  · simp [hrow]

/-- Settles O47: where no ON pixel lies under a sprite bit there is no collision, and XOR with OFF shows the sprite or
leaves the display. -/
theorem drawingOnAClearDisplayShowsTheSprite : Obligations.DrawingOnAClearDisplayShowsTheSprite := by
  intro x y n s t hst hdiag
  have hlen := s.mem.readList_nibble_length_le s.i.toNat n
  obtain ⟨-, hfb, hflag, -, -⟩ := drw_next hst hdiag
  have hpixel := pixel_drawSprite s.fb (s.getV x) (s.getV y) _ hlen
  have hcoll := drawSprite_collision s.fb (s.getV x) (s.getV y) _ hlen
  have hclearFlag (h : ¬(s.drawn x y n).2 = true) : t.getV 15 = 0 := by
    rw [hflag, Bool.eq_false_of_not_eq_true h]
    rfl
  refine ⟨fun hoff => ⟨hclearFlag fun hon => ?_, fun r c => ?_⟩, fun hzero => ?_⟩
  · obtain ⟨r, c, -, hpix⟩ := hcoll.mp hon
    exact Bool.false_ne_true ((hoff r c).symm.trans hpix)
  · rw [hfb]
    exact (hpixel r c).trans (by rw [hoff, Bool.false_xor]; rfl)
  · have hrows : ∀ row ∈ s.mem.readList s.i.toNat n.toNat, row = 0 := by
      simpa [Memory.readList] using hzero
    have hbit := spriteBit_eq_false_of_zero hrows (s.getV x).toNat (s.getV y).toNat
    refine ⟨hclearFlag fun hon => ?_, ?_⟩
    · obtain ⟨r, c, hset, -⟩ := hcoll.mp hon
      exact Bool.false_ne_true ((hbit r c).symm.trans hset)
    · rw [hfb]
      exact Display.ext_pixel fun r c => (hpixel r c).trans (by rw [hbit, Bool.xor_false])

/-! ### Stores seen by loads and fetches -/

/-- A LD [I],Vx that completes leaves `V[k]` at `I + k`, and `I` as it was. -/
theorem storeRegs_next {s t : State} {x : Nibble} (h : exec (.storeRegs x) s = .next t) (hdiag : t.diag = .none) :
    s.i.toNat + x.toNat ≤ 4095 ∧ t.i = s.i ∧ t.pc = s.pc + 2 ∧
      ∀ k : Nibble, k.toNat ≤ x.toNat → t.mem.read (s.i.toNat + k.toNat) = s.getV k := by
  obtain ⟨herr, rfl⟩ := errorOf_eq_none_of_diag_none h hdiag
  refine ⟨by simpa [State.errorOf] using herr, rfl, rfl, fun k hk => ?_⟩
  exact (Memory.read_writeList_getElem ..).trans (s.regsTo_getElem hk)

/-- Settles O54: the load reads the bytes of the store, whatever the registers hold. -/
theorem storeThenLoadRestoresTheRegisters : Obligations.StoreThenLoadRestoresTheRegisters := by
  intro x s t v hstore hdiag
  obtain ⟨hin, hi, -, hread⟩ := storeRegs_next hstore hdiag
  obtain ⟨u, hload, hu, hv⟩ := (loadRegsCopiesFromMemory x { t with v := v }).1 (by rw [hi]; exact hin)
  refine ⟨u, hload, by rw [hu], fun k hk => ?_⟩
  rw [hv, if_pos hk, hi]
  exact hread k hk

/-- Settles O55: the next fetch reads at `I`, where the store put `V0` and `V1`. -/
theorem storeIsSeenByTheNextFetch : Obligations.StoreIsSeenByTheNextFetch := by
  intro x s t hx hi hstore hdiag
  obtain ⟨-, -, hpc, hread⟩ := storeRegs_next hstore hdiag
  rw [State.fetchWord, hpc, ← hi]
  exact congrArg₂ wordOfBytes (hread 0 (Nat.zero_le _)) (hread 1 hx)

end Sys2Proof.Machine
end
